-- ==== Sys2Proof/Word.lean ====
section
/-! DEFINITION. The word types of the crypto core: bytes, command words, byte vectors. -/

namespace Sys2Proof

/-- A byte: an 8-bit unsigned value, bit 0 least significant (00_scope.md R7, 40_gf_arith.md R60). -/
abbrev Byte := BitVec 8

/-- A command word: one 32-bit unsigned value, never serialised into bytes (30_encoding.md R45,
20_memory.md R32). -/
abbrev Word := BitVec 32

/-- A byte vector; index 0 is the first byte transferred (00_scope.md R7, 20_memory.md R32). The empty
vector stands for an absent one (30_encoding.md R45). -/
abbrev ByteVec := List Byte

end Sys2Proof
end

