-- ==== Sys2Proof/Syntax.lean ====
section
/-! DEFINITION. The commands as syntax: the fixed fields of a command word (Instr), the operand vectors
that travel with it, and the lines of the assembler notation. -/

namespace Sys2Proof

/-- The eight commands of 30_encoding.md R51, with the fields of their words (R48 to R50, R54) in the
order of the assembler syntax (R56). POLY, A and B are bytes; BSZ and KSZ are byte counts and MODE a
number, so they are natural numbers whose bounds are `Instr.WellFormed`. The operand vectors are not
part of the word: see `Operands`. -/
inductive Instr where
  /-- `GF_ADD poly, a, b` (40_gf_arith.md R68). -/
  | gfAdd (poly a b : Byte)
  /-- `GF_MUL poly, a, b` (40_gf_arith.md R69). -/
  | gfMul (poly a b : Byte)
  /-- `GF_INV poly, a` (40_gf_arith.md R70). -/
  | gfInv (poly a : Byte)
  /-- `CONFIG bsz, ksz, poly, mode` (42_config.md R100). -/
  | config (bsz ksz : Nat) (poly : Byte) (mode : Nat)
  /-- `LOAD_KEY` (42_config.md R103). -/
  | loadKey
  /-- `LOAD_IV` (42_config.md R104). -/
  | loadIv
  /-- `ENCRYPT` (43_modes.md R110). -/
  | encrypt
  /-- `DECRYPT` (43_modes.md R111). -/
  | decrypt
  deriving DecidableEq, Repr

/-- The three operand vectors of a command (30_encoding.md R45), each of any length. -/
structure Operands where
  /-- KEYDATA: key bytes. -/
  keyData : ByteVec
  /-- IVDATA: IV bytes. -/
  ivData : ByteVec
  /-- DATA: the block to encrypt or decrypt. -/
  data : ByteVec
  deriving DecidableEq, Repr

/-- All three vectors empty, that is absent (30_encoding.md R45). -/
abbrev Operands.none : Operands := ⟨[], [], []⟩

/-- A command: one transaction from the host to the core (30_encoding.md R45). -/
structure Command where
  /-- WORD: opcode and fixed fields. -/
  word : Word
  /-- KEYDATA, IVDATA and DATA. -/
  operands : Operands
  deriving DecidableEq, Repr

/-- A line of the assembler notation: a command with its operands or a raw `.word` (30_encoding.md R56),
or one of the three pseudo-instructions (R57). A mode is written as its number. -/
inductive AsmLine where
  /-- One of the eight commands with its operand vectors (R56). -/
  | command (i : Instr) (operands : Operands)
  /-- `.word 0xXXXXXXXX`: a raw word with empty operand vectors (R56). -/
  | word (w : Word)
  /-- `GF_SQR poly, a` (R57). -/
  | gfSqr (poly a : Byte)
  /-- `AES128 mode, key=<hex> [, iv=<hex>]` (R57). -/
  | aes128 (mode : Nat) (key iv : ByteVec)
  /-- `REWIND iv=<hex>` (R57). -/
  | rewind (iv : ByteVec)
  deriving DecidableEq, Repr

end Sys2Proof
end

