-- ==== Sys2Proof/WellFormed.lean ====
section
/-! DEFINITION. Which instructions a 32-bit command word can spell. -/

namespace Sys2Proof

/-- An instruction fits its format (30_encoding.md R54: "KSZ and BSZ are byte counts 0..255; MODE is
0..15"). Sizes, modes and polynomials a command then rejects with a status (such as KSZ = 17) are well
formed: R49 gives them encodings so that they can be rejected. -/
def Instr.wellFormed : Instr → Bool
  | .gfAdd _ _ _ => true
  | .gfMul _ _ _ => true
  | .gfInv _ _ => true
  | .config bsz ksz _ mode => decide (bsz < 256) && decide (ksz < 256) && decide (mode < 16)
  | .loadKey => true
  | .loadIv => true
  | .encrypt => true
  | .decrypt => true

/-- `Instr.wellFormed` as a proposition. -/
abbrev Instr.WellFormed (i : Instr) : Prop := i.wellFormed = true

end Sys2Proof
end

