-- ==== Sys2Proof/Decode.lean ====
section
/-! DEFINITION. Decoding a command word (total, rejecting by name), the encoder written from the same
formats, the opcode table's mask and match, and the assembler. -/

namespace Sys2Proof

/-- Why a word is illegal (30_encoding.md R52). Each is answered with ERR_ILLEGAL. -/
inductive Illegal where
  /-- OPC is 0x0 or 0x9 to 0xF. -/
  | reservedOpcode (opc : Nat)
  /-- The reserved field Z of format G or D is not 0. -/
  | reservedFieldZ
  /-- The reserved field B of GF_INV is not 0. -/
  | reservedFieldB
  deriving DecidableEq, Repr

/-- `OPC = WORD[31:28]` (30_encoding.md R47). -/
def opcField (w : Word) : BitVec 4 := w.extractLsb' 28 4

/-- `Z = WORD[27:24]` of format G (R48). -/
def zFieldG (w : Word) : BitVec 4 := w.extractLsb' 24 4

/-- `Z = WORD[27:0]` of format D (R50). -/
def zFieldD (w : Word) : BitVec 28 := w.extractLsb' 0 28

/-- `POLY = WORD[23:16]` of formats G and C (R48, R49, R54). -/
def polyField (w : Word) : Byte := w.extractLsb' 16 8

/-- `A = WORD[15:8]` of format G (R48, R54). -/
def aField (w : Word) : Byte := w.extractLsb' 8 8

/-- `B = WORD[7:0]` of format G (R48, R54). -/
def bField (w : Word) : Byte := w.extractLsb' 0 8

/-- `MODE = WORD[27:24]` of format C, 0 to 15 (R49, R54). -/
def modeField (w : Word) : Nat := (w.extractLsb' 24 4).toNat

/-- `KSZ = WORD[15:8]` of format C, a byte count 0 to 255 (R49, R54). -/
def kszField (w : Word) : Nat := (w.extractLsb' 8 8).toNat

/-- `BSZ = WORD[7:0]` of format C, a byte count 0 to 255 (R49, R54). -/
def bszField (w : Word) : Nat := (w.extractLsb' 0 8).toNat

/-- A word of format G: legal when Z is 0 (R48, R52). -/
def decodeG (w : Word) (i : Instr) : Except Illegal Instr :=
  if zFieldG w = 0 then .ok i else .error .reservedFieldZ

/-- A word of format D: legal when Z is 0 (R50, R52). -/
def decodeD (w : Word) (i : Instr) : Except Illegal Instr :=
  if zFieldD w = 0 then .ok i else .error .reservedFieldZ

/-- Decoding is total: every 32-bit word is exactly one of the eight commands or illegal
(30_encoding.md R51, R52, R55). -/
def decode (w : Word) : Except Illegal Instr :=
  match (opcField w).toNat with
  | 1 => decodeG w (.gfAdd (polyField w) (aField w) (bField w))
  | 2 => decodeG w (.gfMul (polyField w) (aField w) (bField w))
  | 3 => if bField w = 0 then decodeG w (.gfInv (polyField w) (aField w)) else .error .reservedFieldB
  | 4 => .ok (.config (bszField w) (kszField w) (polyField w) (modeField w))
  | 5 => decodeD w .loadKey
  | 6 => decodeD w .loadIv
  | 7 => decodeD w .encrypt
  | 8 => decodeD w .decrypt
  | opc => .error (.reservedOpcode opc)

/-- A word whose field with lowest bit `lo` holds `v` and whose other bits are 0. -/
def fieldAt (lo : Nat) (v : BitVec n) : Word := v.setWidth 32 <<< lo

/-- The word of a well-formed instruction, field by field from bit 31 down (30_encoding.md R48 to R51,
R56). -/
def encode : Instr → Word
  | .gfAdd poly a b => fieldAt 28 0x1#4 ||| fieldAt 16 poly ||| fieldAt 8 a ||| fieldAt 0 b
  | .gfMul poly a b => fieldAt 28 0x2#4 ||| fieldAt 16 poly ||| fieldAt 8 a ||| fieldAt 0 b
  | .gfInv poly a => fieldAt 28 0x3#4 ||| fieldAt 16 poly ||| fieldAt 8 a
  | .config bsz ksz poly mode =>
      fieldAt 28 0x4#4 ||| fieldAt 24 (BitVec.ofNat 4 mode) ||| fieldAt 16 poly |||
        fieldAt 8 (BitVec.ofNat 8 ksz) ||| fieldAt 0 (BitVec.ofNat 8 bsz)
  | .loadKey => fieldAt 28 0x5#4
  | .loadIv => fieldAt 28 0x6#4
  | .encrypt => fieldAt 28 0x7#4
  | .decrypt => fieldAt 28 0x8#4

/-- The mask column of the opcode map (30_encoding.md R51). -/
def Instr.opMask : Instr → Word
  | .gfAdd _ _ _ => 0xFF000000
  | .gfMul _ _ _ => 0xFF000000
  | .gfInv _ _ => 0xFF0000FF
  | .config _ _ _ _ => 0xF0000000
  | .loadKey => 0xFFFFFFFF
  | .loadIv => 0xFFFFFFFF
  | .encrypt => 0xFFFFFFFF
  | .decrypt => 0xFFFFFFFF

/-- The match column of the opcode map (30_encoding.md R51). -/
def Instr.opMatch : Instr → Word
  | .gfAdd _ _ _ => 0x10000000
  | .gfMul _ _ _ => 0x20000000
  | .gfInv _ _ => 0x30000000
  | .config _ _ _ _ => 0x40000000
  | .loadKey => 0x50000000
  | .loadIv => 0x60000000
  | .encrypt => 0x70000000
  | .decrypt => 0x80000000

/-- The word the opcode table's numbering spells: `w`, with every bit from `nbits` up equal to 0. -/
def tableWord (nbits w : Nat) : Word := BitVec.ofNat 32 (w % 2 ^ nbits)

/-- The instruction `decode` reads from a word given as the opcode table numbers its bits; `none` where
the word is illegal. A command word is one 32-bit value (30_encoding.md R55). -/
def decodeTableWord (nbits w : Nat) : Option Instr :=
  match decode (tableWord nbits w) with
  | .ok i => some i
  | .error _ => none

/-- The command a line of the assembler notation stands for (30_encoding.md R56, R57). -/
def AsmLine.assemble : AsmLine → Command
  | .command i operands => ⟨encode i, operands⟩
  | .word w => ⟨w, .none⟩
  | .gfSqr poly a => ⟨encode (.gfMul poly a a), .none⟩
  | .aes128 mode key iv => ⟨encode (.config 16 16 0x1b mode), ⟨key, iv, []⟩⟩
  | .rewind iv => ⟨encode .loadIv, ⟨[], iv, []⟩⟩

end Sys2Proof
end

