-- ==== Sys2Proof/Config.lean ====
section
/-! DEFINITION. What the specification leaves OPEN for an implementation: the free values. -/

namespace Sys2Proof

/-- INV_SBOX_FILL (00_scope.md R6, 41_rijndael.md R77, 92_eei_decisions.md D17): the entry at an index
(second argument) of the inverse S-box of a polynomial (first argument) whose S-box is not a
bijection. The specification leaves it OPEN, so it has no body: no proof can see a value of it.
Assumption log entry 1. -/
opaque Config.invSboxFill : Byte → Byte → Byte

end Sys2Proof
end

