-- ==== Sys2Proof/Machine/GfArith.lean ====
section
/-! DEFINITION. The GF(2^8) arithmetic unit: the functions of 40_gf_arith.md rules R61 to R67. -/

namespace Sys2Proof.Machine

/-- The modulus named by `p`: the 9-bit number `0x100 | p`, x^8 implicit (R61). -/
def gfModulus (p : Byte) : Nat := 0x100 ||| p.toNat

/-- The number of bits set in a byte (00_scope.md R7). -/
def popcount (p : Byte) : Nat := (List.range 8).countP fun i => p.getLsbD i

/-- PolyValid(p): bit 0 is set and the number of set bits is even (R62). -/
def polyValid (p : Byte) : Bool := p.getLsbD 0 && popcount p % 2 == 0

/-- Addition is exclusive-or (R63). -/
def gfAdd (a b : Byte) : Byte := a ^^^ b

/-- Carry-less multiplication: the exclusive-or of `a << i` over the bits `i` set in `b`, as a natural
number (R64). -/
def clmul (a b : Byte) : Nat :=
  (List.range 8).foldl (fun acc i => if b.getLsbD i then acc ^^^ (a.toNat <<< i) else acc) 0

/-- At most `n` passes of the long division by the modulus `m` (R65): while the dividend does not fit in
8 bits, exclusive-or into it the modulus aligned with its highest set bit. -/
def gfReducePasses (m : Nat) : (n : Nat) → (d : Nat) → Nat
  | 0, d => d
  | n + 1, d => if 0x100 ≤ d then gfReducePasses m n (d ^^^ (m <<< (d.log2 - 8))) else d

/-- Reduce(d, p) (R65). Seven passes suffice for every product: d < 2^15. The two special cases of the
source give what the division gives (90_conflicts.md C7, 92_eei_decisions.md D36). -/
def gfReduce (d : Nat) (p : Byte) : Byte := BitVec.ofNat 8 (gfReducePasses (gfModulus p) 7 d)

/-- Multiplication in the ring of `p` (R66). -/
def gfMul (a b p : Byte) : Byte := gfReduce (clmul a b) p

/-- The bits of 254, most significant first (R67). -/
def invExponent : List Bool := [true, true, true, true, true, true, true, false]

/-- Inversion: `a` to the power 254 by square-and-multiply, with 0 sent to 0 (R67). -/
def gfInv (a p : Byte) : Byte :=
  if a = 0 then 0
  else invExponent.foldl (fun r e => if e then gfMul (gfMul r r p) a p else gfMul r r p) 1

end Sys2Proof.Machine
end

