-- ==== Sys2Proof/Machine/State.lean ====
section
/-! DEFINITION. The state of the crypto core (10_state.md) as plain data, its state after reset, and the
reasons a step can stop. -/

namespace Sys2Proof.Machine

/-- A block or key size: 16, 24 or 32 bytes (10_state.md R11, R12). -/
inductive Size where
  | b16
  | b24
  | b32
  deriving DecidableEq, Repr

/-- The four cipher modes CFG_MODE can hold (10_state.md R14). -/
inductive Mode where
  /-- ElectronicCodeBook, 0. -/
  | ecb
  /-- CipherBlockChaining, 1. -/
  | cbc
  /-- CipherFeedback, 2. -/
  | cfb
  /-- OutputFeedback, 3. -/
  | ofb
  deriving DecidableEq, Repr

/-- The ten statuses of a response (60_exceptions.md R125). -/
inductive Status where
  | ok
  | errIllegal
  | errBlockSize
  | errKeySize
  | errKey
  | errPoly
  | errMode
  | errIv
  | errNotConfigured
  | errBlock
  deriving DecidableEq, Repr

/-- A response: one transaction from the core to the host (30_encoding.md R46). -/
structure Response where
  /-- STATUS. -/
  status : Status
  /-- RESULT. -/
  result : ByteVec
  deriving DecidableEq, Repr

/-- What the outside world does to the core, in the order the core meets it. -/
inductive HostEvent where
  /-- A host's command, in acceptance order (20_memory.md R39, 70_reset_and_hazards.md R149). -/
  | command (c : Command)
  /-- The platform asserts reset while no command is in progress (70_reset_and_hazards.md R145). -/
  | reset
  /-- Reset arrives while `c` is in progress (70_reset_and_hazards.md R146). -/
  | resetDuring (c : Command)
  deriving DecidableEq, Repr

/-- The registers that hold a value exactly while CFG_VALID = 1 (10_state.md R10 to R21). -/
structure CipherRegs where
  /-- CFG_BSZ (R11). -/
  bsz : Size
  /-- CFG_KSZ (R12). -/
  ksz : Size
  /-- CFG_POLY (R13). -/
  poly : Byte
  /-- CFG_MODE (R14). -/
  mode : Mode
  /-- KEY (R16). -/
  key : ByteVec
  /-- RK[0..NR] (R17). -/
  rk : List ByteVec
  /-- SBOX[0..255] (R18). -/
  sbox : ByteVec
  /-- INVSBOX[0..255] (R19). -/
  invSbox : ByteVec
  /-- IV with IV_PRESENT (R20): `none` is IV_PRESENT = 0. -/
  iv : Option ByteVec
  /-- STATE (R21): what the last block operation left in it, `none` while no block operation has run
  since the configuration was made. No rule reads it between commands. Assumption log entry 4. -/
  working : Option ByteVec
  deriving DecidableEq, Repr

/-- Why a step could stop with a fault. It has no constructor: the core takes no traps and no input makes
it hang (60_exceptions.md R128, R129), so no meaning of this model raises a fault. Every error is a
status in the command's own response. Safe: there is nothing here to rely on. -/
inductive Fault where
  deriving DecidableEq, Repr

/-- Why a step could refuse. -/
inductive Refusal where
  /-- Raised by an arm of `exec` whose instruction has no meaning yet. No arm raises it in this model.
  Safe: the model stops where the hardware goes on. -/
  | notModelled (mnemonic : String)
  /-- Raised by ENCRYPT and DECRYPT in CBC, CFB or OFB mode when the IV they must read is absent.
  93_implementation_defined.md section 2 treats "Reading a register that has no value (before CONFIG, or
  IV in ECB)" as `refuse`: no rule can do it. No state that meets `State.Inv` (Safety.lean) reaches
  it. Safe: the model stops. Assumption log entry 3. -/
  | readNoValue (register : String)
  deriving DecidableEq, Repr

/-- The machine: the core's registers, and its command interface. -/
structure State where
  /-- The registers of 10_state.md R10 to R21. CFG_VALID is 1 exactly when this is `some`: R10 has a model
  hold R11 to R20 "as absent (an option type) while CFG_VALID = 0, never as zero". -/
  regs : Option CipherRegs
  /-- The operand vectors of the command being executed, consumed when it is accepted (20_memory.md R42)
  and empty between commands. -/
  operands : Operands
  /-- What the outside world presents, oldest first: commands held until the core accepts them
  (70_reset_and_hazards.md R149), and resets. -/
  inputs : List HostEvent
  /-- The responses the core has given, oldest first (30_encoding.md R46). They belong to the hosts: no
  rule reads them (10_state.md R23). -/
  responses : List Response
  deriving DecidableEq, Repr

/-- The core right after reset (10_state.md R26, 70_reset_and_hazards.md R145): CFG_VALID = 0 and
IV_PRESENT = 0, no other register has a value, no command is presented and none has been answered. -/
def State.reset : State := ⟨none, .none, [], []⟩

end Sys2Proof.Machine
end

