-- ==== Sys2Proof/Machine/Operands.lean ====
section
/-! DEFINITION. How fields and operand vectors are read: byte vectors and their columns (20_memory.md
R32 to R34), and the size, mode and status numbers (10_state.md R11 to R15, 60_exceptions.md R125). -/

namespace Sys2Proof.Machine

/-- `v[j]` (00_scope.md R7). Every index a rule forms is in range (20_memory.md R31), so the 0 given
beyond the end is never used by a configured core. Assumption log entry 5. -/
def byteAt (v : ByteVec) (j : Nat) : Byte := v.getD j 0

/-- `⊕` of two byte vectors of equal length, element by element (00_scope.md R7). -/
def xorVec (s t : ByteVec) : ByteVec := List.zipWith (· ^^^ ·) s t

/-- The columns of a byte vector: its bytes four by four, in index order (20_memory.md R33, R34). -/
def columns : ByteVec → List ByteVec
  | a :: b :: c :: d :: rest => [a, b, c, d] :: columns rest
  | _ => []

/-- A size in bytes (10_state.md R11, R12). -/
def Size.bytes : Size → Nat
  | .b16 => 16
  | .b24 => 24
  | .b32 => 32

/-- NB, the number of columns of a block (10_state.md R11). -/
def Size.columns (b : Size) : Nat := b.bytes / 4

/-- The size a byte count names, if it is one of 16, 24 and 32 (30_encoding.md R49). -/
def sizeOfCount : Nat → Option Size
  | 16 => some .b16
  | 24 => some .b24
  | 32 => some .b32
  | _ => none

/-- The number of a cipher mode (10_state.md R14). -/
def Mode.code : Mode → BitVec 2
  | .ecb => 0
  | .cbc => 1
  | .cfb => 2
  | .ofb => 3

/-- The mode a MODE field names, if it is not above 3 (30_encoding.md R49). -/
def modeOfField : Nat → Option Mode
  | 0 => some .ecb
  | 1 => some .cbc
  | 2 => some .cfb
  | 3 => some .ofb
  | _ => none

/-- NR, the number of rounds of a block and a key size (10_state.md R15). -/
def roundCount (b k : Size) : Nat :=
  if max b.bytes k.bytes = 16 then 10 else if max b.bytes k.bytes = 24 then 12 else 14

/-- The STATUS byte of a response (60_exceptions.md R125). -/
def Status.code : Status → BitVec 8
  | .ok => 0x00
  | .errIllegal => 0x01
  | .errBlockSize => 0x02
  | .errKeySize => 0x03
  | .errKey => 0x04
  | .errPoly => 0x05
  | .errMode => 0x06
  | .errIv => 0x07
  | .errNotConfigured => 0x08
  | .errBlock => 0x09

/-- NR of a configuration (10_state.md R15). -/
def CipherRegs.nr (r : CipherRegs) : Nat := roundCount r.bsz r.ksz

/-- CFG_VALID (10_state.md R10). -/
def State.cfgValid (s : State) : Bool := s.regs.isSome

/-- IV_PRESENT (10_state.md R20): 0 while the core is not configured. -/
def State.ivPresent (s : State) : Bool :=
  match s.regs with
  | none => false
  | some r => r.iv.isSome

end Sys2Proof.Machine
end

