-- ==== Sys2Proof/Machine/Rijndael.lean ====
section
/-! DEFINITION. The Rijndael block engine (41_rijndael.md): S-box generator, key-schedule expander, round
functions, BlockEncrypt and BlockDecrypt. -/

namespace Sys2Proof.Machine

/-! ### S-box generator -/

/-- Rotation of a byte left by `n` bits (R75). -/
def rotl8 (b : Byte) (n : Nat) : Byte := (b <<< n) ||| (b >>> (8 - n))

/-- The affine transform of the S-box (R75). -/
def affine (b : Byte) : Byte :=
  b ^^^ rotl8 b 1 ^^^ rotl8 b 2 ^^^ rotl8 b 3 ^^^ rotl8 b 4 ^^^ 0x63

/-- MakeSBox(p): entry x is Affine(gfInv(x, p)), for x = 0..255 (R76). -/
def makeSBox (p : Byte) : ByteVec :=
  (List.range 256).map fun x => affine (gfInv (BitVec.ofNat 8 x) p)

/-- The values a table takes, as a number whose bit `y` is set exactly when some entry is `y`. -/
def valuesTaken (table : ByteVec) : Nat := table.foldl (fun m y => m ||| (1 <<< y.toNat)) 0

/-- A table of 256 bytes is a bijection exactly when all 256 byte values occur in it (R77). -/
def isBijection (table : ByteVec) : Bool := valuesTaken table == 2 ^ 256 - 1

/-- MakeInvSBox (R77): entry y is the x with SBOX[x] = y where SBOX is a bijection, and the OPEN table
INV_SBOX_FILL(p) otherwise. -/
def makeInvSBox (p : Byte) (sbox : ByteVec) : ByteVec :=
  if isBijection sbox then (List.range 256).map fun y => BitVec.ofNat 8 (sbox.idxOf (BitVec.ofNat 8 y))
  else (List.range 256).map fun y => Config.invSboxFill p (BitVec.ofNat 8 y)

/-- `SBOX[x]` or `INVSBOX[x]`: a table read at a byte index (20_memory.md R31). -/
def lookup (table : ByteVec) (x : Byte) : Byte := byteAt table x.toNat

/-! ### Key-schedule expander -/

/-- The ten round constants, the same for every polynomial (R78). -/
def rcon : ByteVec := [0x01, 0x02, 0x04, 0x08, 0x10, 0x20, 0x40, 0x80, 0x1B, 0x36]

/-- Round key 0: the key tiled cyclically to the block length (R79). -/
def tileKey (b : Size) (key : ByteVec) : ByteVec :=
  (List.range b.bytes).map fun j => byteAt key (j % key.length)

/-- The key-schedule word of round `i`: the last column of the previous round key rotated left by one
byte, through the S-box, with RCON[(i-1) mod 10] added to its first byte (R80). -/
def keyWord (sbox : ByteVec) (b : Size) (i : Nat) (prev : ByteVec) : ByteVec :=
  [ lookup sbox (byteAt prev (b.bytes - 3)) ^^^ byteAt rcon ((i - 1) % 10),
    lookup sbox (byteAt prev (b.bytes - 2)),
    lookup sbox (byteAt prev (b.bytes - 1)),
    lookup sbox (byteAt prev (b.bytes - 4)) ]

/-- Each column exclusive-or the column before it in the result; `left` stands before the first
(R81, R82). -/
def chainColumns (left : ByteVec) : List ByteVec → List ByteVec
  | [] => []
  | col :: rest => xorVec col left :: chainColumns (xorVec col left) rest

/-- Round key `i` from round key `i - 1` (R80 to R82). -/
def nextRoundKey (sbox : ByteVec) (b : Size) (i : Nat) (prev : ByteVec) : ByteVec :=
  (chainColumns (keyWord sbox b i prev) (columns prev)).flatten

/-- Round key `i - 1`, given as `prev`, and the `n` round keys after it. -/
def roundKeysFrom (sbox : ByteVec) (b : Size) : (n i : Nat) → (prev : ByteVec) → List ByteVec
  | 0, _, prev => [prev]
  | n + 1, i, prev => prev :: roundKeysFrom sbox b n (i + 1) (nextRoundKey sbox b i prev)

/-- KeyExpand: the round keys RK[0..NR] (R79 to R82). -/
def keyExpand (sbox : ByteVec) (b k : Size) (key : ByteVec) : List ByteVec :=
  roundKeysFrom sbox b (roundCount b k) 1 (tileKey b key)

/-! ### Round functions -/

/-- AddRoundKey, the round key's index taken modulo its own length (R83). -/
def addRoundKey (s roundKey : ByteVec) : ByteVec :=
  (List.range s.length).map fun j => byteAt s j ^^^ byteAt roundKey (j % roundKey.length)

/-- SubBytes with SBOX (R84); InvSubBytes is the same read of INVSBOX (R90). -/
def subBytes (table s : ByteVec) : ByteVec := s.map (lookup table)

/-- The ShiftRows offset `C[r]` of row `r` (R85). -/
def shiftOffset (b : Size) (r : Nat) : Nat :=
  match b with
  | .b16 => [0, 1, 2, 3].getD r 0
  | .b24 => [0, 1, 2, 3].getD r 0
  | .b32 => [0, 1, 3, 4].getD r 0

/-- ShiftRows: byte 4c + r comes from column (c + C[r]) mod NB of row r (R86). -/
def shiftRows (b : Size) (s : ByteVec) : ByteVec :=
  (List.range b.bytes).map fun j =>
    byteAt s (4 * ((j / 4 + shiftOffset b (j % 4)) % b.columns) + j % 4)

/-- InvShiftRows: byte 4c + r comes from column (c - C[r]) mod NB of row r (R89). -/
def invShiftRows (b : Size) (s : ByteVec) : ByteVec :=
  (List.range b.bytes).map fun j =>
    byteAt s (4 * ((j / 4 + b.columns - shiftOffset b (j % 4)) % b.columns) + j % 4)

/-- The product of every column with a fixed polynomial of four coefficients: byte 4c + r is the sum over
k of coefficient (k - r + 3) mod 4 times byte 4c + k (R87). -/
def mixWith (coef : ByteVec) (p : Byte) (s : ByteVec) : ByteVec :=
  (List.range s.length).map fun j =>
    (List.range 4).foldl
      (fun acc k =>
        gfAdd acc (gfMul (byteAt coef ((k + 3 - j % 4) % 4)) (byteAt s (4 * (j / 4) + k)) p)) 0

/-- MixColumns: the fixed polynomial (3,1,1,2) (R87). -/
def mixColumns (p : Byte) (s : ByteVec) : ByteVec := mixWith [0x03, 0x01, 0x01, 0x02] p s

/-- InvMixColumns: the fixed polynomial (11,13,9,14) (R91). -/
def invMixColumns (p : Byte) (s : ByteVec) : ByteVec := mixWith [0x0B, 0x0D, 0x09, 0x0E] p s

/-! ### Block operations -/

/-- `RK[i]`. -/
def CipherRegs.roundKey (r : CipherRegs) (i : Nat) : ByteVec := r.rk.getD i []

/-- One round of BlockEncrypt; the final round has no MixColumns (R88). -/
def encryptRound (r : CipherRegs) (s : ByteVec) (round : Nat) : ByteVec :=
  let t := shiftRows r.bsz (subBytes r.sbox s)
  addRoundKey (if round ≠ r.nr then mixColumns r.poly t else t) (r.roundKey round)

/-- BlockEncrypt (R88). -/
def blockEncrypt (r : CipherRegs) (block : ByteVec) : ByteVec :=
  (List.range' 1 r.nr).foldl (encryptRound r) (addRoundKey block (r.roundKey 0))

/-- One round of BlockDecrypt; round 0 has no InvMixColumns (R92). -/
def decryptRound (r : CipherRegs) (s : ByteVec) (round : Nat) : ByteVec :=
  let t := addRoundKey (subBytes r.invSbox (invShiftRows r.bsz s)) (r.roundKey round)
  if round ≠ 0 then invMixColumns r.poly t else t

/-- BlockDecrypt: rounds NR - 1 down to 0 (R92). -/
def blockDecrypt (r : CipherRegs) (block : ByteVec) : ByteVec :=
  (List.range r.nr).reverse.foldl (decryptRound r) (addRoundKey block (r.roundKey r.nr))

end Sys2Proof.Machine
end

