-- ==== Sys2Proof/Machine/Ops.lean ====
section
/-! DEFINITION. The shared operations on the state: accepting a command, responding, raising an error,
reset, and making a configuration. -/

namespace Sys2Proof.Machine

/-- A command is accepted: its operand vectors become those of the command being executed, and `rest` is
what stays presented (20_memory.md R42, 70_reset_and_hazards.md R149). -/
def State.accept (s : State) (c : Command) (rest : List HostEvent) : State :=
  { s with operands := c.operands, inputs := rest }

/-- `respond(status, result)` (00_scope.md R7): the command ends and its one response is given
(30_encoding.md R46); its operand vectors are gone (20_memory.md R42). -/
def State.respond (s : State) (status : Status) (result : ByteVec) : State :=
  { s with operands := .none, responses := s.responses ++ [⟨status, result⟩] }

/-- `raise Err(code)`: the response carries the code and an empty result, and no register is written
(00_scope.md R7, 60_exceptions.md R126). It is what an error does in place of a trap (R129). -/
def State.raise (s : State) (e : Status) : State := s.respond e []

/-- What an illegal word does, whatever its operand vectors hold (30_encoding.md R52). -/
def State.illegal (s : State) : State := s.raise .errIllegal

/-- Reset (70_reset_and_hazards.md R145, R146): the core's state becomes the reset state and a command in
progress gets no response. What the hosts hold, the responses given before and the commands still
presented, is not the core's. Assumption log entry 6. -/
def State.resetCore (s : State) (rest : List HostEvent) : State :=
  { State.reset with inputs := rest, responses := s.responses }

/-- All registers written together when a command completes (20_memory.md R38). -/
def State.commit (s : State) (r : CipherRegs) : State := { s with regs := some r }

/-- The word of the command `step` runs next, replaced; with no command presented first, a command with
empty operand vectors is presented. -/
def State.presentWord (s : State) (w : Word) : State :=
  match s.inputs with
  | .command c :: rest => { s with inputs := .command { c with word := w } :: rest }
  | events => { s with inputs := .command ⟨w, .none⟩ :: events }

/-- The registers a successful CONFIG writes (42_config.md R100 to R102): the tables and the round keys
from the new configuration, and the IV absent in ECB mode whatever is supplied. -/
def configured (b k : Size) (poly : Byte) (m : Mode) (key iv : ByteVec) : CipherRegs where
  bsz := b
  ksz := k
  poly := poly
  mode := m
  key := key
  rk := keyExpand (makeSBox poly) b k key
  sbox := makeSBox poly
  invSbox := makeInvSBox poly (makeSBox poly)
  iv := if m = .ecb then none else some iv
  working := none

/-- The registers a successful LOAD_KEY leaves: KEY and RK are written, nothing else (42_config.md
R103). -/
def CipherRegs.withKey (r : CipherRegs) (key : ByteVec) : CipherRegs :=
  { r with key := key, rk := keyExpand r.sbox r.bsz r.ksz key }

end Sys2Proof.Machine
end

