-- ==== Sys2Proof/Machine/Flags.lean ====
section
/-! DEFINITION. The core has no flags and no condition codes (10_state.md R23): what a command reports is
the STATUS of its response. This file computes it: the ordered checks of each command (60_exceptions.md
R127), each answering the first error that applies. ERR_ILLEGAL comes before all of them, in `decode`. -/

namespace Sys2Proof.Machine

/-- The checks of CONFIG in their order, and the sizes and mode it accepts (42_config.md R100). -/
def checkConfig (bsz ksz : Nat) (poly : Byte) (mode : Nat) (o : Operands) :
    Except Status (Size × Size × Mode) :=
  match sizeOfCount bsz with
  | none => .error .errBlockSize
  | some b =>
    match sizeOfCount ksz with
    | none => .error .errKeySize
    | some k =>
      if o.keyData.length ≠ ksz then .error .errKey
      else if ¬ polyValid poly then .error .errPoly
      else
        match modeOfField mode with
        | none => .error .errMode
        | some m =>
          if m ≠ .ecb ∧ o.ivData.length ≠ bsz then .error .errIv else .ok (b, k, m)

/-- The check of a GF command's polynomial (40_gf_arith.md R68 to R70). -/
def checkPoly (poly : Byte) : Except Status Unit :=
  if polyValid poly then .ok () else .error .errPoly

/-- The check of LOAD_KEY, LOAD_IV, ENCRYPT and DECRYPT that the core is configured (10_state.md R10). -/
def checkConfigured (s : State) : Except Status CipherRegs :=
  match s.regs with
  | none => .error .errNotConfigured
  | some r => .ok r

/-- The checks of LOAD_KEY (42_config.md R103). -/
def checkLoadKey (s : State) : Except Status CipherRegs :=
  match checkConfigured s with
  | .error e => .error e
  | .ok r => if s.operands.keyData.length ≠ r.ksz.bytes then .error .errKey else .ok r

/-- The checks of LOAD_IV: in ECB mode IVDATA is ignored (42_config.md R104). -/
def checkLoadIv (s : State) : Except Status CipherRegs :=
  match checkConfigured s with
  | .error e => .error e
  | .ok r =>
    if r.mode ≠ .ecb ∧ s.operands.ivData.length ≠ r.bsz.bytes then .error .errIv else .ok r

/-- The checks of ENCRYPT and DECRYPT (43_modes.md R110, R111). -/
def checkBlock (s : State) : Except Status CipherRegs :=
  match checkConfigured s with
  | .error e => .error e
  | .ok r => if s.operands.data.length ≠ r.bsz.bytes then .error .errBlock else .ok r

end Sys2Proof.Machine
end

