-- ==== Sys2Proof/Machine/ConfigCommands.lean ====
section
/-! DEFINITION. The meanings of CONFIG, LOAD_KEY and LOAD_IV (42_config.md). All three answer with an empty
result. -/

namespace Sys2Proof.Machine

/-- `CONFIG bsz, ksz, poly, mode` (R100 to R102): a success replaces the whole previous configuration. -/
def execConfig (bsz ksz : Nat) (poly : Byte) (mode : Nat) (s : State) :
    Host.Outcome State Fault Refusal :=
  match checkConfig bsz ksz poly mode s.operands with
  | .error e => .next (s.raise e)
  | .ok (b, k, m) =>
    .next ((s.commit (configured b k poly m s.operands.keyData s.operands.ivData)).respond .ok [])

/-- `LOAD_KEY` (R103). -/
def execLoadKey (s : State) : Host.Outcome State Fault Refusal :=
  match checkLoadKey s with
  | .error e => .next (s.raise e)
  | .ok r => .next ((s.commit (r.withKey s.operands.keyData)).respond .ok [])

/-- `LOAD_IV` (R104): in ECB mode the IV stays absent. -/
def execLoadIv (s : State) : Host.Outcome State Fault Refusal :=
  match checkLoadIv s with
  | .error e => .next (s.raise e)
  | .ok r =>
    if r.mode = .ecb then .next (s.respond .ok [])
    else .next ((s.commit { r with iv := some s.operands.ivData }).respond .ok [])

end Sys2Proof.Machine
end

