-- ==== Sys2Proof/Machine/GfCommands.lean ====
section
/-! DEFINITION. The meanings of GF_ADD, GF_MUL and GF_INV (40_gf_arith.md section 3). They read and write
no register and ignore the operand vectors. -/

namespace Sys2Proof.Machine

/-- A GF command answers one byte when its own polynomial is valid (R68 to R70). -/
def gfRespond (poly value : Byte) (s : State) : State :=
  match checkPoly poly with
  | .error e => s.raise e
  | .ok _ => s.respond .ok [value]

/-- `GF_ADD poly, a, b` (R68). -/
def execGfAdd (poly a b : Byte) (s : State) : Host.Outcome State Fault Refusal :=
  .next (gfRespond poly (gfAdd a b) s)

/-- `GF_MUL poly, a, b` (R69). -/
def execGfMul (poly a b : Byte) (s : State) : Host.Outcome State Fault Refusal :=
  .next (gfRespond poly (gfMul a b poly) s)

/-- `GF_INV poly, a` (R70). -/
def execGfInv (poly a : Byte) (s : State) : Host.Outcome State Fault Refusal :=
  .next (gfRespond poly (gfInv a poly) s)

end Sys2Proof.Machine
end

