-- ==== Sys2Proof/Machine/ModeCommands.lean ====
section
/-! DEFINITION. The mode wrapper (43_modes.md): the eight mode rules and the meanings of ENCRYPT and
DECRYPT. -/

namespace Sys2Proof.Machine

/-- What a mode rule produces: its RESULT, the IV it leaves (`none` where it writes none), and the value
its block operation leaves in STATE (10_state.md R21). -/
structure BlockOutcome where
  result : ByteVec
  newIv : Option ByteVec
  working : ByteVec
  deriving DecidableEq, Repr

/-- EcbEncrypt (R112). -/
def ecbEncrypt (r : CipherRegs) (data : ByteVec) : BlockOutcome :=
  ⟨blockEncrypt r data, none, blockEncrypt r data⟩

/-- EcbDecrypt (R113). -/
def ecbDecrypt (r : CipherRegs) (data : ByteVec) : BlockOutcome :=
  ⟨blockDecrypt r data, none, blockDecrypt r data⟩

/-- CbcEncrypt: the ciphertext produced becomes the IV (R114). -/
def cbcEncrypt (r : CipherRegs) (iv data : ByteVec) : BlockOutcome :=
  let c := blockEncrypt r (xorVec data iv)
  ⟨c, some c, c⟩

/-- CbcDecrypt: the ciphertext consumed becomes the IV (R115). -/
def cbcDecrypt (r : CipherRegs) (iv data : ByteVec) : BlockOutcome :=
  let o := blockDecrypt r data
  ⟨xorVec o iv, some data, o⟩

/-- CfbEncrypt: the ciphertext produced becomes the IV (R116). -/
def cfbEncrypt (r : CipherRegs) (iv data : ByteVec) : BlockOutcome :=
  let o := blockEncrypt r iv
  ⟨xorVec data o, some (xorVec data o), o⟩

/-- CfbDecrypt: the ciphertext consumed becomes the IV; the engine encrypts (R117). -/
def cfbDecrypt (r : CipherRegs) (iv data : ByteVec) : BlockOutcome :=
  let o := blockEncrypt r iv
  ⟨xorVec data o, some data, o⟩

/-- OfbEncrypt: the encrypted IV becomes the IV (R118). -/
def ofbEncrypt (r : CipherRegs) (iv data : ByteVec) : BlockOutcome :=
  let o := blockEncrypt r iv
  ⟨xorVec data o, some o, o⟩

/-- OfbDecrypt: the same computation as OfbEncrypt (R119). -/
def ofbDecrypt (r : CipherRegs) (iv data : ByteVec) : BlockOutcome :=
  let o := blockEncrypt r iv
  ⟨xorVec data o, some o, o⟩

/-- ENCRYPT's case on CFG_MODE (R110); `none` where the mode must read an IV that is absent. -/
def encryptBlock (r : CipherRegs) (data : ByteVec) : Option BlockOutcome :=
  match r.mode with
  | .ecb => some (ecbEncrypt r data)
  | .cbc => r.iv.map fun iv => cbcEncrypt r iv data
  | .cfb => r.iv.map fun iv => cfbEncrypt r iv data
  | .ofb => r.iv.map fun iv => ofbEncrypt r iv data

/-- DECRYPT's case on CFG_MODE (R111); `none` where the mode must read an IV that is absent. -/
def decryptBlock (r : CipherRegs) (data : ByteVec) : Option BlockOutcome :=
  match r.mode with
  | .ecb => some (ecbDecrypt r data)
  | .cbc => r.iv.map fun iv => cbcDecrypt r iv data
  | .cfb => r.iv.map fun iv => cfbDecrypt r iv data
  | .ofb => r.iv.map fun iv => ofbDecrypt r iv data

/-- The registers after a mode rule: the new IV where it writes one, and STATE. -/
def CipherRegs.afterBlock (r : CipherRegs) (o : BlockOutcome) : CipherRegs :=
  { r with iv := o.newIv <|> r.iv, working := some o.working }

/-- A block command ends: its IV and STATE are written together with its response (20_memory.md R38,
R41). Reading an absent IV is refused (93_implementation_defined.md section 2, assumption log entry
3). -/
def finishBlock (s : State) (r : CipherRegs) (o : Option BlockOutcome) :
    Host.Outcome State Fault Refusal :=
  match o with
  | none => .refused (.readNoValue "IV")
  | some out => .next ((s.commit (r.afterBlock out)).respond .ok out.result)

/-- `ENCRYPT` (R110). -/
def execEncrypt (s : State) : Host.Outcome State Fault Refusal :=
  match checkBlock s with
  | .error e => .next (s.raise e)
  | .ok r => finishBlock s r (encryptBlock r s.operands.data)

/-- `DECRYPT` (R111). -/
def execDecrypt (s : State) : Host.Outcome State Fault Refusal :=
  match checkBlock s with
  | .error e => .next (s.raise e)
  | .ok r => finishBlock s r (decryptBlock r s.operands.data)

end Sys2Proof.Machine
end

