-- ==== Sys2Proof/Machine/Dispatch.lean ====
section
/-! DEFINITION. The meaning of each command of the opcode map (30_encoding.md R51), one arm each. -/

namespace Sys2Proof.Machine

def exec (i : Instr) (s : State) : Host.Outcome State Fault Refusal :=
  match i with
  | .gfAdd poly a b => Sys2Proof.Machine.execGfAdd poly a b s
  | .gfMul poly a b => Sys2Proof.Machine.execGfMul poly a b s
  | .gfInv poly a => Sys2Proof.Machine.execGfInv poly a s
  | .config bsz ksz poly mode => Sys2Proof.Machine.execConfig bsz ksz poly mode s
  | .loadKey => Sys2Proof.Machine.execLoadKey s
  | .loadIv => Sys2Proof.Machine.execLoadIv s
  | .encrypt => Sys2Proof.Machine.execEncrypt s
  | .decrypt => Sys2Proof.Machine.execDecrypt s

end Sys2Proof.Machine
end

