-- ==== Sys2Proof/Machine/Step.lean ====
section
/-! DEFINITION. One step of the crypto core: one command from acceptance to response, one reset, or an
idle step. -/

namespace Sys2Proof.Machine

/-- One step takes the oldest thing the outside world presents. A command is one atomic step from its
acceptance to its response (20_memory.md R38, R39; 70_reset_and_hazards.md R154): a legal word runs its
instruction, an illegal one answers ERR_ILLEGAL (30_encoding.md R52). A reset puts the core into its
reset state, abandoning a command in progress (70_reset_and_hazards.md R145, R146). With nothing
presented the core is idle and keeps its state (60_exceptions.md R136; assumption log entry 7). -/
def step (s : State) : Host.Outcome State Fault Refusal :=
  match s.inputs with
  | [] => .next s
  | .reset :: rest => .next (s.resetCore rest)
  | .resetDuring _ :: rest => .next (s.resetCore rest)
  | .command c :: rest =>
    match decode c.word with
    | .ok i => exec i (s.accept c rest)
    | .error _ => .next (s.accept c rest).illegal

/-- `s` with the word the opcode table numbers as `w` (the bits from `nbits` up equal to 0) as the word of
the command `step` runs next. There is no program counter and no stored program (10_state.md R22,
20_memory.md R42): a program is what the host presents. Assumption log entry 8. -/
def State.withFetchWord (s : State) (nbits w : Nat) : State := s.presentWord (tableWord nbits w)

end Sys2Proof.Machine
end

