-- ==== Sys2Proof/Safety.lean ====
section
/-! DEFINITION. What a sound state of the crypto core is, in the terms claims use. -/

namespace Sys2Proof.Machine

/-- What holds of the registers whenever CFG_VALID = 1 (10_state.md R13, R16 to R20, R24; the last field is
R21's length of STATE). That the sizes and the mode are legal is in their types. -/
structure CipherRegs.Inv (r : CipherRegs) : Prop where
  polyValid : polyValid r.poly = true
  keyLength : r.key.length = r.ksz.bytes
  sboxEq : r.sbox = makeSBox r.poly
  invSboxEq : r.invSbox = makeInvSBox r.poly r.sbox
  rkEq : r.rk = keyExpand r.sbox r.bsz r.ksz r.key
  ivPresent : r.iv.isSome = decide (r.mode ≠ .ecb)
  ivLength : ∀ iv, r.iv = some iv → iv.length = r.bsz.bytes
  workingLength : ∀ w, r.working = some w → w.length = r.bsz.bytes

/-- The invariant of 10_state.md R24: it says nothing while CFG_VALID = 0. -/
def State.Inv (s : State) : Prop := ∀ r, s.regs = some r → r.Inv

/-- Whether an event is a command that runs to its response; a command a reset abandons is not
(70_reset_and_hazards.md R146). -/
def HostEvent.isAnswered : HostEvent → Bool
  | .command _ => true
  | .reset => false
  | .resetDuring _ => false

end Sys2Proof.Machine
end

