-- ==== Sys2Proof/Certificates/Slice0/Obligations.lean ====
section
/-! DEFINITION. What is claimed of the crypto core, one definition per claim, and the notions the claims
are written in. -/

namespace Sys2Proof.Claims

open Sys2Proof.Machine

/-- PolyValid(p) in the words of 40_gf_arith.md R62: bit 0 is set and an even number of bits is set. -/
def PolyValid (p : Byte) : Prop :=
  p.getLsbD 0 = true ∧ Even (Finset.univ.filter fun i : Fin 8 => p.getLsbD i = true).card

/-- The state after a step that accepted a command, left `rest` presented and `regs` in the registers,
and gave the response `⟨status, result⟩`. -/
def answered (s : State) (rest : List HostEvent) (regs : Option CipherRegs) (status : Status)
    (result : ByteVec) : State :=
  { regs := regs, operands := .none, inputs := rest, responses := s.responses ++ [⟨status, result⟩] }

/-- A byte as a polynomial over GF(2), bit i the coefficient of x^i (40_gf_arith.md R60). -/
noncomputable def bytePoly (b : Byte) : Polynomial (ZMod 2) :=
  ∑ i ∈ Finset.range 8, if b.getLsbD i = true then Polynomial.X ^ i else 0

/-- M(p) = x^8 + p(x) (40_gf_arith.md R61). -/
noncomputable def modulusPoly (p : Byte) : Polynomial (ZMod 2) := Polynomial.X ^ 8 + bytePoly p

/-- The command `ENCRYPT data=<block>`. -/
def encryptCommand (block : ByteVec) : Command := ⟨0x70000000, ⟨[], [], block⟩⟩

/-- The command `DECRYPT data=<block>`. -/
def decryptCommand (block : ByteVec) : Command := ⟨0x80000000, ⟨[], [], block⟩⟩

/-- The command `LOAD_IV iv=<iv>`. -/
def loadIvCommand (iv : ByteVec) : Command := ⟨0x60000000, ⟨[], iv, []⟩⟩

/-- The CONFIG command that repeats the configuration and key of `r`, with the IV `iv`. -/
def configAgain (r : CipherRegs) (iv : ByteVec) : Command :=
  ⟨encode (.config r.bsz.bytes r.ksz.bytes r.poly r.mode.code.toNat), ⟨r.key, iv, []⟩⟩

/-- The state `s` whose configuration is that of `r` with the mode `m` and the IV `iv`. -/
def inMode (s : State) (r : CipherRegs) (m : Mode) (iv : Option ByteVec) : State :=
  { s with regs := some { r with mode := m, iv := iv } }

/-- Two register sets with the same sizes, polynomial and mode, and an IV in both or in neither; keys,
tables, IV bytes and STATE may differ. -/
def SamePublic (r q : CipherRegs) : Prop :=
  r.bsz = q.bsz ∧ r.ksz = q.ksz ∧ r.poly = q.poly ∧ r.mode = q.mode ∧ r.iv.isSome = q.iv.isSome

/-- The three cases of 10_state.md R15 for a block of `b` bytes and a key of `k` bytes: `n` is NR. -/
def RoundsOf (b k n : Nat) : Prop :=
  (max b k = 16 → n = 10) ∧ (max b k = 24 → n = 12) ∧ (max b k = 32 → n = 14)

/-- The clauses of 10_state.md R24, with NR as R15 gives it. -/
def TablesAndLengthsHold (r : CipherRegs) : Prop :=
  r.bsz.bytes ∈ [16, 24, 32] ∧ r.ksz.bytes ∈ [16, 24, 32] ∧ PolyValid r.poly ∧
  r.mode.code.toNat ∈ [0, 1, 2, 3] ∧ r.key.length = r.ksz.bytes ∧
  r.sbox = makeSBox r.poly ∧ r.invSbox = makeInvSBox r.poly r.sbox ∧
  r.rk = keyExpand r.sbox r.bsz r.ksz r.key ∧
  RoundsOf r.bsz.bytes r.ksz.bytes r.nr ∧ r.rk.length = r.nr + 1 ∧
  (∀ k ∈ r.rk, k.length = r.bsz.bytes) ∧
  (r.iv.isSome = true ↔ r.mode.code.toNat ≠ 0) ∧ (∀ iv, r.iv = some iv → iv.length = r.bsz.bytes)

/-- The table of 60_exceptions.md R125: the code of every status. -/
def StatusCodesOfR125 : Prop :=
  Status.ok.code = 0x00 ∧ Status.errIllegal.code = 0x01 ∧ Status.errBlockSize.code = 0x02 ∧
  Status.errKeySize.code = 0x03 ∧ Status.errKey.code = 0x04 ∧ Status.errPoly.code = 0x05 ∧
  Status.errMode.code = 0x06 ∧ Status.errIv.code = 0x07 ∧ Status.errNotConfigured.code = 0x08 ∧
  Status.errBlock.code = 0x09

/-- The nine valid polynomials whose S-box 41_rijndael.md R77 says is not a bijection. -/
def nineOpenPolys : List Byte := [0x05, 0x11, 0x41, 0x55, 0x6f, 0x93, 0xb7, 0xdb, 0xed]

end Sys2Proof.Claims

open Sys2Proof Sys2Proof.Machine Sys2Proof.Claims

/-! ### Encoding -/

/-- Decoding an encoded well-formed instruction gives it back, for every instruction and every operand
value its fields admit (30_encoding.md R47 to R51, R54). -/
def Obligations.DecodeEncodeRoundTrip : Prop :=
  ∀ i : Instr, i.WellFormed → decode (encode i) = .ok i

/-- A word that decodes is the encoding of the instruction it decodes to, which is well formed: no bit of
a legal word is dropped (30_encoding.md R51, R52, R54, R55). -/
def Obligations.EncodeDecodeRoundTrip : Prop :=
  ∀ (w : Word) (i : Instr), decode w = .ok i → i.WellFormed ∧ encode i = w

/-- 30_encoding.md R51 with the field positions of R54: a word decodes to a command, with its fields taken
directly from its bits, exactly when `(WORD & mask) = match` for that command's row, and a word of a
reserved opcode decodes to none. -/
def Obligations.DecodeSelectsByMaskAndMatch : Prop :=
  ∀ w : Word,
    (decode w = .ok (.gfAdd (w.extractLsb' 16 8) (w.extractLsb' 8 8) (w.extractLsb' 0 8)) ↔
      w &&& 0xFF000000 = 0x10000000) ∧
    (decode w = .ok (.gfMul (w.extractLsb' 16 8) (w.extractLsb' 8 8) (w.extractLsb' 0 8)) ↔
      w &&& 0xFF000000 = 0x20000000) ∧
    (decode w = .ok (.gfInv (w.extractLsb' 16 8) (w.extractLsb' 8 8)) ↔
      w &&& 0xFF0000FF = 0x30000000) ∧
    (decode w = .ok (.config (w.extractLsb' 0 8).toNat (w.extractLsb' 8 8).toNat
        (w.extractLsb' 16 8) (w.extractLsb' 24 4).toNat) ↔
      w &&& 0xF0000000 = 0x40000000) ∧
    (decode w = .ok .loadKey ↔ w &&& 0xFFFFFFFF = 0x50000000) ∧
    (decode w = .ok .loadIv ↔ w &&& 0xFFFFFFFF = 0x60000000) ∧
    (decode w = .ok .encrypt ↔ w &&& 0xFFFFFFFF = 0x70000000) ∧
    (decode w = .ok .decrypt ↔ w &&& 0xFFFFFFFF = 0x80000000) ∧
    (w &&& 0xF0000000 = 0x00000000 ∨ 0x90000000#32 ≤ w → ∀ i, decode w ≠ .ok i)

/-- 30_encoding.md R52: a word with a reserved opcode, or with a reserved field that is not 0, answers
ERR_ILLEGAL (0x01) with an empty result and writes no register, whatever its operand vectors hold. -/
def Obligations.IllegalWordsAnswerErrIllegal : Prop :=
  ∀ (s : State) (c : Command) (rest : List HostEvent), s.inputs = .command c :: rest →
    (c.word.extractLsb' 28 4 = 0x0 ∨ 0x9#4 ≤ c.word.extractLsb' 28 4 ∨
      (c.word.extractLsb' 28 4 ∈ [0x1#4, 0x2#4, 0x3#4] ∧ c.word.extractLsb' 24 4 ≠ 0) ∨
      (c.word.extractLsb' 28 4 = 0x3 ∧ c.word.extractLsb' 0 8 ≠ 0) ∨
      (c.word.extractLsb' 28 4 ∈ [0x5#4, 0x6#4, 0x7#4, 0x8#4] ∧ c.word.extractLsb' 0 28 ≠ 0)) →
    step s = .next (answered s rest s.regs .errIllegal []) ∧ Status.errIllegal.code = 0x01

/-- The worked encodings of 30_encoding.md R58 decode as its table says (a sanity statement). -/
def Obligations.WorkedEncodingsDecode : Prop :=
  decode 0x101B5783 = .ok (.gfAdd 0x1b 0x57 0x83) ∧
  decode 0x201B5783 = .ok (.gfMul 0x1b 0x57 0x83) ∧
  decode 0x301B5300 = .ok (.gfInv 0x1b 0x53) ∧
  decode 0x421B2018 = .ok (.config 24 32 0x1b 2) ∧
  decode 0x431D1020 = .ok (.config 32 16 0x1d 3) ∧
  decode 0x401B1110 = .ok (.config 16 17 0x1b 0) ∧
  decode 0x50000000 = .ok .loadKey ∧ decode 0x60000000 = .ok .loadIv ∧
  decode 0x70000000 = .ok .encrypt ∧ decode 0x80000000 = .ok .decrypt ∧
  decode 0x301B5301 = .error .reservedFieldB ∧ decode 0x90000000 = .error (.reservedOpcode 9)

/-! ### The step -/

/-- When the command presented first decodes to an instruction, a step is `exec` of that instruction, on
the state with the command's operand vectors taken in and the command no longer presented. -/
def Obligations.StepRunsDecodedCommand : Prop :=
  ∀ (s : State) (c : Command) (rest : List HostEvent) (i : Instr),
    s.inputs = .command c :: rest → decode c.word = .ok i →
    step s = exec i { s with operands := c.operands, inputs := rest }

/-- 70_reset_and_hazards.md R145 and R146: a reset, whether the core is idle or a command is in progress, ends
in the reset state; the command in progress gets no response and none of its writes take effect. That the
responses given before stay given, and that a reset during a command is one event, are the model's
choices (assumption log entry 6, DEDUCED and DESIGN CHOICE). -/
def Obligations.ResetAbandonsTheCommand : Prop :=
  ∀ (s : State) (rest : List HostEvent) (c : Command),
    s.inputs = .reset :: rest ∨ s.inputs = .resetDuring c :: rest →
    ∃ t, step s = .next t ∧ t.regs = State.reset.regs ∧ t.operands = State.reset.operands ∧
      t.cfgValid = false ∧ t.ivPresent = false ∧ t.responses = s.responses

/-- 10_state.md R26: after reset CFG_VALID = 0 and IV_PRESENT = 0, and no other register has a value. -/
def Obligations.ResetStateHasNoValues : Prop :=
  State.reset.cfgValid = false ∧ State.reset.ivPresent = false ∧ State.reset.regs = none

/-- With nothing presented the core is idle and keeps all its state (60_exceptions.md R136); that an idle
step is a step at all is the model's choice (assumption log entry 7). -/
def Obligations.IdleCoreKeepsItsState : Prop :=
  ∀ s : State, s.inputs = [] → step s = .next s

/-- 30_encoding.md R46: exactly one response follows every command, with a result of one byte for a
successful GF command, of CFG_BSZ bytes for a successful ENCRYPT or DECRYPT, and empty for every other
command and every failed command; STATUS is a code of 60_exceptions.md R125, each status its own. -/
def Obligations.EveryCommandGetsOneResponse : Prop :=
  StatusCodesOfR125 ∧ ∀ (s : State) (c : Command) (rest : List HostEvent),
    s.Inv → s.inputs = .command c :: rest →
    ∃ (t : State) (status : Status) (result : ByteVec), step s = .next t ∧
      t.responses = s.responses ++ [⟨status, result⟩] ∧ t.inputs = rest ∧
      (status ≠ .ok → result = []) ∧
      (status = .ok → c.word.extractLsb' 28 4 ∈ [0x1#4, 0x2#4, 0x3#4] → result.length = 1) ∧
      (status = .ok → c.word.extractLsb' 28 4 ∈ [0x7#4, 0x8#4] →
        ∃ r, s.regs = some r ∧ result.length = r.bsz.bytes) ∧
      (c.word.extractLsb' 28 4 ∈ [0x4#4, 0x5#4, 0x6#4] → result = [])

/-- The reset state meets the invariant of 10_state.md R24. -/
def Obligations.ResetStateMeetsInvariant : Prop := State.reset.Inv

/-- 10_state.md R24: whenever CFG_VALID = 1, its clauses hold after every step that starts in a state that
meets them, whatever the core is asked to do. -/
def Obligations.StepKeepsInvariant : Prop :=
  ∀ s t : State, s.Inv → step s = .next t →
    t.Inv ∧ ∀ r, t.regs = some r → TablesAndLengthsHold r

/-- 60_exceptions.md R128: no input makes the core stop; from every state that meets the invariant a step
answers a next state. -/
def Obligations.StepNeverStops : Prop :=
  ∀ s : State, s.Inv → ∃ t, step s = .next t

/-- 20_memory.md R39, 60_exceptions.md R128, 70_reset_and_hazards.md R146, R149: from every state that
meets the invariant, as many steps as events are presented end, take in every event, keep the invariant,
and give one response for each command a reset does not abandon: none is lost or answered twice. That
commands still presented and responses already given survive a reset is the model's choice (assumption
log entry 6, DEDUCED and DESIGN CHOICE). -/
def Obligations.RunAnswersEveryCommand : Prop :=
  ∀ s : State, s.Inv →
    ∃ t : State, Host.Core.run Sys2Proof.core s.inputs.length s = .next t ∧ t.Inv ∧ t.inputs = [] ∧
      ∃ new, t.responses = s.responses ++ new ∧ new.length = s.inputs.countP HostEvent.isAnswered

/-! ### GF commands -/

/-- 40_gf_arith.md R68, GF_ADD: its checks in order, its result, its corner cases and its example. -/
def Obligations.GfAddAnswersItsRule : Prop :=
  ∀ (s : State) (c : Command) (rest : List HostEvent),
    s.inputs = .command c :: rest → c.word.extractLsb' 28 4 = 0x1 →
    (c.word.extractLsb' 24 4 ≠ 0 → step s = .next (answered s rest s.regs .errIllegal [])) ∧
    (c.word.extractLsb' 24 4 = 0 → ¬ PolyValid (c.word.extractLsb' 16 8) →
      step s = .next (answered s rest s.regs .errPoly [])) ∧
    (c.word.extractLsb' 24 4 = 0 → PolyValid (c.word.extractLsb' 16 8) →
      step s = .next (answered s rest s.regs .ok
        [c.word.extractLsb' 8 8 ^^^ c.word.extractLsb' 0 8])) ∧
    (∀ a : Byte, gfAdd a a = 0 ∧ gfAdd a 0 = a) ∧
    (c.word = 0x101B5783 → step s = .next (answered s rest s.regs .ok [0xD4]))

/-- 40_gf_arith.md R69, GF_MUL: its checks in order, its result, its corner cases and its example. -/
def Obligations.GfMulAnswersItsRule : Prop :=
  ∀ (s : State) (c : Command) (rest : List HostEvent),
    s.inputs = .command c :: rest → c.word.extractLsb' 28 4 = 0x2 →
    (c.word.extractLsb' 24 4 ≠ 0 → step s = .next (answered s rest s.regs .errIllegal [])) ∧
    (c.word.extractLsb' 24 4 = 0 → ¬ PolyValid (c.word.extractLsb' 16 8) →
      step s = .next (answered s rest s.regs .errPoly [])) ∧
    (c.word.extractLsb' 24 4 = 0 → PolyValid (c.word.extractLsb' 16 8) →
      step s = .next (answered s rest s.regs .ok
        [gfMul (c.word.extractLsb' 8 8) (c.word.extractLsb' 0 8) (c.word.extractLsb' 16 8)])) ∧
    (∀ a b p : Byte, PolyValid p → gfMul 0 b p = 0 ∧ gfMul a 0 p = 0 ∧ gfMul 1 b p = b) ∧
    gfMul 0x80 0x02 0x1b = 0x1B ∧ gfMul 0xFF 0xFF 0x1b = 0x13 ∧ clmul 0x57 0x83 = 0x2B79 ∧
    (c.word = 0x201B5783 → step s = .next (answered s rest s.regs .ok [0xC1]))

/-- The pseudocode of 40_gf_arith.md R70, GF_INV, and its corner cases: zero and one, that gfInv undoes itself
under an irreducible polynomial, its values under the reducible 0x05, and its example. (That the result
is a^254 under every polynomial is GfInvIsPower254.) -/
def Obligations.GfInvAnswersItsRule : Prop :=
  ∀ (s : State) (c : Command) (rest : List HostEvent),
    s.inputs = .command c :: rest → c.word.extractLsb' 28 4 = 0x3 →
    (c.word.extractLsb' 24 4 ≠ 0 ∨ c.word.extractLsb' 0 8 ≠ 0 →
      step s = .next (answered s rest s.regs .errIllegal [])) ∧
    (c.word.extractLsb' 24 4 = 0 → c.word.extractLsb' 0 8 = 0 →
      ¬ PolyValid (c.word.extractLsb' 16 8) → step s = .next (answered s rest s.regs .errPoly [])) ∧
    (c.word.extractLsb' 24 4 = 0 → c.word.extractLsb' 0 8 = 0 →
      PolyValid (c.word.extractLsb' 16 8) →
      step s = .next (answered s rest s.regs .ok
        [gfInv (c.word.extractLsb' 8 8) (c.word.extractLsb' 16 8)])) ∧
    (∀ p : Byte, PolyValid p → gfInv 0 p = 0 ∧ gfInv 1 p = 1) ∧
    (∀ p : Byte, PolyValid p → Irreducible (modulusPoly p) → ∀ a : Byte, gfInv (gfInv a p) p = a) ∧
    gfInv 0x02 0x05 = 0x45 ∧ gfMul 0x02 0x45 0x05 = 0x8A ∧
    (c.word = 0x301B5300 → step s = .next (answered s rest s.regs .ok [0xCA]))

/-- Where a GF command completes: in every state, for every pair of bytes and every valid polynomial, GF_ADD,
GF_MUL and GF_INV answer OK and one byte, and change nothing else (40_gf_arith.md R68 to R70). -/
def Obligations.GfCommandsComplete : Prop :=
  ∀ (s : State) (p a b : Byte), PolyValid p →
    exec (.gfAdd p a b) s = .next (answered s s.inputs s.regs .ok [a ^^^ b]) ∧
    exec (.gfMul p a b) s = .next (answered s s.inputs s.regs .ok [gfMul a b p]) ∧
    exec (.gfInv p a) s = .next (answered s s.inputs s.regs .ok [gfInv a p])

/-! ### The arithmetic -/

/-- gfMul is the product of the two bytes as polynomials over GF(2), reduced modulo M(p)
(40_gf_arith.md R61, R64 to R66, R71). -/
def Obligations.GfMulIsProductModulo : Prop :=
  ∀ a b p : Byte, bytePoly (gfMul a b p) = (bytePoly a * bytePoly b) %ₘ modulusPoly p

/-- gfInv is the 254th power modulo M(p), for every byte (40_gf_arith.md R67). -/
def Obligations.GfInvIsPower254 : Prop :=
  ∀ a p : Byte, bytePoly (gfInv a p) = bytePoly a ^ 254 %ₘ modulusPoly p

/-- 40_gf_arith.md R71: for every valid p the bytes with gfAdd and gfMul are GF(2)[x]/(M(p)) (a byte is named
by its polynomial, sums are sums and products are products modulo M(p)), and the laws it lists hold. -/
def Obligations.GfRingLaws : Prop :=
  ∀ p a b c : Byte, PolyValid p →
    (bytePoly a = bytePoly b → a = b) ∧ bytePoly (gfAdd a b) = bytePoly a + bytePoly b ∧
    bytePoly (gfMul a b p) = (bytePoly a * bytePoly b) %ₘ modulusPoly p ∧
    gfAdd a b = gfAdd b a ∧ gfAdd a (gfAdd b c) = gfAdd (gfAdd a b) c ∧ gfAdd a 0 = a ∧
    gfAdd a a = 0 ∧ gfMul a b p = gfMul b a p ∧
    gfMul a (gfMul b c p) p = gfMul (gfMul a b p) c p ∧ gfMul a 1 p = a ∧ gfMul a 0 p = 0 ∧
    gfMul a (gfAdd b c) p = gfAdd (gfMul a b p) (gfMul a c p) ∧ gfInv 0 p = 0 ∧ gfInv 1 p = 1

/-- 40_gf_arith.md R72: for a valid p, `multiply(a, invert(a)) = 1` holds for every a ≠ 0 exactly when M(p)
is irreducible over GF(2); under p = 0x05 it fails for 240 of the 255 non-zero bytes, and
M(0x05) = (x^4 + x + 1)^2. -/
def Obligations.InverseLawIffIrreducible : Prop :=
  (∀ p : Byte, PolyValid p →
    ((∀ a : Byte, a ≠ 0 → gfMul a (gfInv a p) p = 1) ↔ Irreducible (modulusPoly p))) ∧
  ((List.range 256).countP fun a => decide (a ≠ 0) &&
    gfMul (BitVec.ofNat 8 a) (gfInv (BitVec.ofNat 8 a) 0x05) 0x05 != 1) = 240 ∧
  modulusPoly 0x05 = (Polynomial.X ^ 4 + Polynomial.X + 1) ^ 2

/-! ### The block engine -/

/-- The S-box has 256 entries, bit i of entry x is the exclusive-or of bits i, i-1, i-2, i-3 and i-4 (modulo
8) of gfInv(x, p) and of bit i of 0x63, and entry 0 is 0x63 (41_rijndael.md R75, R76). -/
def Obligations.SBoxEntriesAreAffineInverses : Prop :=
  ∀ p : Byte, (makeSBox p).length = 256 ∧ byteAt (makeSBox p) 0 = 0x63 ∧
    ∀ (x : Byte) (i : Nat), i < 8 →
      (lookup (makeSBox p) x).getLsbD i =
        ((gfInv x p).getLsbD i ^^ (gfInv x p).getLsbD ((i + 7) % 8) ^^
          (gfInv x p).getLsbD ((i + 6) % 8) ^^ (gfInv x p).getLsbD ((i + 5) % 8) ^^
          (gfInv x p).getLsbD ((i + 4) % 8) ^^ (0x63#8).getLsbD i)

/-- The inverse S-box of a bijective table undoes it in both directions; that of any other table is the
OPEN table, whose values are free (41_rijndael.md R77). -/
def Obligations.InvSBoxInvertsOrIsOpen : Prop :=
  ∀ (p : Byte) (sbox : ByteVec), sbox.length = 256 →
    (Function.Bijective (lookup sbox) → ∀ x : Byte,
      lookup (makeInvSBox p sbox) (lookup sbox x) = x ∧
      lookup sbox (lookup (makeInvSBox p sbox) x) = x) ∧
    (¬ Function.Bijective (lookup sbox) → ∀ y : Byte,
      lookup (makeInvSBox p sbox) y = Config.invSboxFill p y)

/-- 41_rijndael.md R77: under a valid polynomial the S-box is a bijection exactly when the polynomial is none of
the nine that R77 names, which are valid; under any polynomial it is one exactly when x ↦ gfInv(x, p) is,
so in particular where every non-zero byte has its gfInv as inverse (by 40_gf_arith.md R72, of the valid
polynomials, the irreducible ones). -/
def Obligations.SBoxBijectionByPolynomial : Prop :=
  (∀ p : Byte, PolyValid p → (Function.Bijective (lookup (makeSBox p)) ↔ p ∉ nineOpenPolys)) ∧
  (∀ p ∈ nineOpenPolys, PolyValid p) ∧
  (∀ p : Byte, Function.Bijective (lookup (makeSBox p)) ↔ Function.Bijective fun x => gfInv x p) ∧
  (∀ p : Byte, (∀ a : Byte, a ≠ 0 → gfMul a (gfInv a p) p = 1) →
    Function.Bijective (lookup (makeSBox p)))

/-- 41_rijndael.md R79 to R82, with NR by 10_state.md R15: NR is 10, 12 or 14 as the greater of the two sizes
is 16, 24 or 32 bytes; there are NR + 1 round keys of B bytes; round key 0 is the key tiled cyclically; each
later round key's first column is the previous one's exclusive-or the key-schedule word, and every other
column is the previous one's exclusive-or the preceding column of the new one. -/
def Obligations.KeyScheduleFollowsItsEquations : Prop :=
  (∀ b k : Size, RoundsOf b.bytes k.bytes (roundCount b k)) ∧
  ∀ (sbox : ByteVec) (b k : Size) (key : ByteVec), key.length = k.bytes →
    (keyExpand sbox b k key).length = roundCount b k + 1 ∧
    (∀ rk ∈ keyExpand sbox b k key, rk.length = b.bytes) ∧
    (∀ j, j < b.bytes →
      byteAt ((keyExpand sbox b k key).getD 0 []) j = byteAt key (j % k.bytes)) ∧
    ∀ i, 1 ≤ i → i ≤ roundCount b k →
      ∀ prev now : ByteVec, prev = (keyExpand sbox b k key).getD (i - 1) [] →
        now = (keyExpand sbox b k key).getD i [] →
        byteAt now 0 = byteAt prev 0 ^^^ (lookup sbox (byteAt prev (b.bytes - 3)) ^^^
          byteAt [0x01, 0x02, 0x04, 0x08, 0x10, 0x20, 0x40, 0x80, 0x1B, 0x36] ((i - 1) % 10)) ∧
        byteAt now 1 = byteAt prev 1 ^^^ lookup sbox (byteAt prev (b.bytes - 2)) ∧
        byteAt now 2 = byteAt prev 2 ^^^ lookup sbox (byteAt prev (b.bytes - 1)) ∧
        byteAt now 3 = byteAt prev 3 ^^^ lookup sbox (byteAt prev (b.bytes - 4)) ∧
        ∀ c r, 1 ≤ c → c < b.columns → r < 4 →
          byteAt now (4 * c + r) = byteAt prev (4 * c + r) ^^^ byteAt now (4 * (c - 1) + r)

/-- 41_rijndael.md R95: the key enters the schedule only through round key 0 and the number of rounds, so
key bytes beyond the block have no effect; for 16-byte blocks the schedules of a 24-byte and a 32-byte
key with the same first 16 bytes agree in round keys 0 to 12. -/
def Obligations.KeyScheduleIgnoresKeyBeyondBlock : Prop :=
  (∀ (sbox : ByteVec) (b k : Size) (x y : ByteVec), b.bytes < k.bytes → x.length = k.bytes →
    y.length = k.bytes → x.take b.bytes = y.take b.bytes →
    keyExpand sbox b k x = keyExpand sbox b k y) ∧
  (∀ (sbox : ByteVec) (b k l : Size) (x y : ByteVec), roundCount b k = roundCount b l →
    tileKey b x = tileKey b y → keyExpand sbox b k x = keyExpand sbox b l y) ∧
  (∀ (sbox x y : ByteVec), x.length = 24 → y.length = 32 → x.take 16 = y.take 16 →
    ∀ i, i ≤ 12 → (keyExpand sbox .b16 .b24 x).getD i [] = (keyExpand sbox .b16 .b32 y).getD i [])

/-- 41_rijndael.md R85, R86, R89: ShiftRows takes byte 4c + r from column (c + C[r]) mod NB and InvShiftRows
from column (c - C[r]) mod NB of the same row, with the offsets of R85, and R86's index list. -/
def Obligations.ShiftRowsMovesColumns : Prop :=
  (∀ (b : Size) (s : ByteVec) (c r : Nat), s.length = b.bytes → c < b.columns → r < 4 →
    ∀ off : Nat, off = [0, 1, if b = .b32 then 3 else 2, if b = .b32 then 4 else 3].getD r 0 →
      byteAt (shiftRows b s) (4 * c + r) = byteAt s (4 * ((c + off) % b.columns) + r) ∧
      byteAt (invShiftRows b s) (4 * ((c + off) % b.columns) + r) = byteAt s (4 * c + r) ∧
      byteAt (invShiftRows b s) (4 * c + r) =
        byteAt s (4 * (((c : Int) - off) % b.columns).toNat + r)) ∧
  shiftRows .b16 [0, 1, 2, 3, 4, 5, 6, 7, 8, 9, 10, 11, 12, 13, 14, 15] =
    [0, 5, 10, 15, 4, 9, 14, 3, 8, 13, 2, 7, 12, 1, 6, 11]

/-- 41_rijndael.md R87 and R91 written out: output row r of a column a is 02·a[r] + 03·a[r+1] + 01·a[r+2] +
01·a[r+3], and for the inverse 0e·a[r] + 0b·a[r+1] + 0d·a[r+2] + 09·a[r+3], indices modulo 4. -/
def Obligations.MixColumnsWrittenOut : Prop :=
  ∀ (p : Byte) (s : ByteVec) (c r : Nat) (a : Nat → Byte), 4 * c + 4 ≤ s.length → r < 4 →
    (∀ i, a i = byteAt s (4 * c + i % 4)) →
    byteAt (mixColumns p s) (4 * c + r) =
      gfMul 0x02 (a r) p ^^^ gfMul 0x03 (a (r + 1)) p ^^^ gfMul 0x01 (a (r + 2)) p ^^^
        gfMul 0x01 (a (r + 3)) p ∧
    byteAt (invMixColumns p s) (4 * c + r) =
      gfMul 0x0e (a r) p ^^^ gfMul 0x0b (a (r + 1)) p ^^^ gfMul 0x0d (a (r + 2)) p ^^^
        gfMul 0x09 (a (r + 3)) p

/-- 41_rijndael.md R93: InvShiftRows undoes ShiftRows, AddRoundKey undoes itself, InvSubBytes with the inverse
table undoes SubBytes exactly when the table is a bijection, and InvShiftRows and InvSubBytes commute. -/
def Obligations.RoundFunctionsUndone : Prop :=
  (∀ (b : Size) (s : ByteVec), s.length = b.bytes →
    invShiftRows b (shiftRows b s) = s ∧ shiftRows b (invShiftRows b s) = s) ∧
  (∀ s k : ByteVec, s.length = k.length → addRoundKey (addRoundKey s k) k = s) ∧
  (∀ (p : Byte) (sbox : ByteVec), sbox.length = 256 →
    ((∀ s : ByteVec, subBytes (makeInvSBox p sbox) (subBytes sbox s) = s) ↔
      Function.Bijective (lookup sbox))) ∧
  (∀ (b : Size) (table s : ByteVec), s.length = b.bytes →
    subBytes table (invShiftRows b s) = invShiftRows b (subBytes table s))

/-- 41_rijndael.md R93: InvMixColumns undoes MixColumns on every whole number of columns, for every valid
polynomial, irreducible or not. -/
def Obligations.InvMixColumnsUndoesMixColumns : Prop :=
  ∀ (p : Byte) (s : ByteVec), PolyValid p → s.length % 4 = 0 → invMixColumns p (mixColumns p s) = s

/-- 41_rijndael.md R93, its fourth bullet: on a configured core BlockDecrypt undoes BlockEncrypt on every block
exactly when the S-box is a bijection, and otherwise BlockEncrypt is not injective. The rounds themselves
are BlockOperationsFollowTheirRounds. -/
def Obligations.BlockDecryptUndoesBlockEncrypt : Prop :=
  ∀ r : CipherRegs, r.Inv →
    ((∀ v : ByteVec, v.length = r.bsz.bytes → blockDecrypt r (blockEncrypt r v) = v) ↔
      Function.Bijective (lookup r.sbox)) ∧
    (¬ Function.Bijective (lookup r.sbox) → ∃ v w : ByteVec, v.length = r.bsz.bytes ∧
      w.length = r.bsz.bytes ∧ v ≠ w ∧ blockEncrypt r v = blockEncrypt r w)

/-- 41_rijndael.md R88 and R92, the round sequences, with AddRoundKey, SubBytes and InvSubBytes byte by byte as
R83, R84 and R90 give them. BlockEncrypt passes through vectors S[0..NR]: S[0] adds RK[0] to the block, each
round substitutes, shifts, mixes and adds its round key, and round NR, the last, does not mix. BlockDecrypt
passes through T[NR] down to T[0]: T[NR] adds RK[NR], each round shifts and substitutes back, adds its
round key and mixes back, and round 0, the last, does not mix. -/
def Obligations.BlockOperationsFollowTheirRounds : Prop :=
  (∀ v k : ByteVec, (addRoundKey v k).length = v.length ∧
    ∀ j, j < v.length → byteAt (addRoundKey v k) j = byteAt v j ^^^ byteAt k (j % k.length)) ∧
  (∀ table v : ByteVec, (subBytes table v).length = v.length ∧
    ∀ j, j < v.length → byteAt (subBytes table v) j = lookup table (byteAt v j)) ∧
  (∀ (r : CipherRegs) (block : ByteVec), ∃ S : Nat → ByteVec,
    S 0 = addRoundKey block (r.rk.getD 0 []) ∧
    (∀ round, 1 ≤ round → round < r.nr →
      S round = addRoundKey
        (mixColumns r.poly (shiftRows r.bsz (subBytes r.sbox (S (round - 1)))))
        (r.rk.getD round [])) ∧
    S r.nr = addRoundKey (shiftRows r.bsz (subBytes r.sbox (S (r.nr - 1)))) (r.rk.getD r.nr []) ∧
    blockEncrypt r block = S r.nr) ∧
  (∀ (r : CipherRegs) (block : ByteVec), ∃ T : Nat → ByteVec,
    T r.nr = addRoundKey block (r.rk.getD r.nr []) ∧
    (∀ round, 1 ≤ round → round < r.nr →
      T round = invMixColumns r.poly (addRoundKey
        (subBytes r.invSbox (invShiftRows r.bsz (T (round + 1)))) (r.rk.getD round []))) ∧
    T 0 = addRoundKey (subBytes r.invSbox (invShiftRows r.bsz (T 1))) (r.rk.getD 0 []) ∧
    blockDecrypt r block = T 0)

/-! ### Configuration commands -/

/-- The pseudocode of 42_config.md R100 with R101 and R102: CONFIG's six checks in order, and on success every
register of 10_state.md R11 to R20 written from the new configuration. (What CONFIG leaves in STATE is
the model's choice, assumption log entry 4, and is not stated.) -/
def Obligations.ConfigAnswersItsRule : Prop :=
  ∀ (s : State) (c : Command) (rest : List HostEvent) (bsz ksz mode : Nat) (poly : Byte),
    s.inputs = .command c :: rest → c.word.extractLsb' 28 4 = 0x4 →
    bsz = (c.word.extractLsb' 0 8).toNat → ksz = (c.word.extractLsb' 8 8).toNat →
    poly = c.word.extractLsb' 16 8 → mode = (c.word.extractLsb' 24 4).toNat →
    (bsz ∉ [16, 24, 32] → step s = .next (answered s rest s.regs .errBlockSize [])) ∧
    (bsz ∈ [16, 24, 32] →
      (ksz ∉ [16, 24, 32] → step s = .next (answered s rest s.regs .errKeySize [])) ∧
      (ksz ∈ [16, 24, 32] →
        (c.operands.keyData.length ≠ ksz → step s = .next (answered s rest s.regs .errKey [])) ∧
        (c.operands.keyData.length = ksz →
          (¬ PolyValid poly → step s = .next (answered s rest s.regs .errPoly [])) ∧
          (PolyValid poly →
            (3 < mode → step s = .next (answered s rest s.regs .errMode [])) ∧
            (mode ≤ 3 →
              (mode ≠ 0 ∧ c.operands.ivData.length ≠ bsz →
                step s = .next (answered s rest s.regs .errIv [])) ∧
              (mode = 0 ∨ c.operands.ivData.length = bsz →
                ∃ r : CipherRegs, step s = .next (answered s rest (some r) .ok []) ∧
                  r.bsz.bytes = bsz ∧ r.ksz.bytes = ksz ∧ r.poly = poly ∧
                  r.mode.code.toNat = mode ∧ r.key = c.operands.keyData ∧
                  r.sbox = makeSBox poly ∧ r.invSbox = makeInvSBox poly r.sbox ∧
                  r.rk = keyExpand r.sbox r.bsz r.ksz c.operands.keyData ∧
                  r.iv = if mode = 0 then none else some c.operands.ivData))))))

/-- The pseudocode of 42_config.md R103: LOAD_KEY's checks in order, and on success KEY and RK written and
every other register unchanged. -/
def Obligations.LoadKeyAnswersItsRule : Prop :=
  ∀ (s : State) (c : Command) (rest : List HostEvent),
    s.inputs = .command c :: rest → c.word.extractLsb' 28 4 = 0x5 →
    (c.word.extractLsb' 0 28 ≠ 0 → step s = .next (answered s rest s.regs .errIllegal [])) ∧
    (c.word.extractLsb' 0 28 = 0 →
      (s.regs = none → step s = .next (answered s rest none .errNotConfigured [])) ∧
      ∀ r, s.regs = some r →
        (c.operands.keyData.length ≠ r.ksz.bytes →
          step s = .next (answered s rest (some r) .errKey [])) ∧
        (c.operands.keyData.length = r.ksz.bytes →
          step s = .next (answered s rest
            (some { r with
              key := c.operands.keyData
              rk := keyExpand r.sbox r.bsz r.ksz c.operands.keyData }) .ok [])))

/-- The pseudocode of 42_config.md R104: LOAD_IV's checks in order; in ECB mode IVDATA is ignored and nothing
is written, in the other modes IV is written and every other register is unchanged. -/
def Obligations.LoadIvAnswersItsRule : Prop :=
  ∀ (s : State) (c : Command) (rest : List HostEvent),
    s.inputs = .command c :: rest → c.word.extractLsb' 28 4 = 0x6 →
    (c.word.extractLsb' 0 28 ≠ 0 → step s = .next (answered s rest s.regs .errIllegal [])) ∧
    (c.word.extractLsb' 0 28 = 0 →
      (s.regs = none → step s = .next (answered s rest none .errNotConfigured [])) ∧
      ∀ r, s.regs = some r →
        (r.mode = .ecb → step s = .next (answered s rest (some r) .ok [])) ∧
        (r.mode ≠ .ecb →
          (c.operands.ivData.length ≠ r.bsz.bytes →
            step s = .next (answered s rest (some r) .errIv [])) ∧
          (c.operands.ivData.length = r.bsz.bytes →
            step s = .next (answered s rest (some { r with iv := some c.operands.ivData }) .ok []))))

/-- Where CONFIG, LOAD_KEY and LOAD_IV complete, on the state and operands alone: CONFIG in every state for
every size, mode and valid polynomial with a key of the key size and, outside ECB, an IV of the block
size; LOAD_KEY and LOAD_IV on a configured core with a key or IV of its size (42_config.md R100, R103,
R104). -/
def Obligations.ConfigCommandsComplete : Prop :=
  (∀ (s : State) (b k : Size) (p : Byte) (m : Mode), PolyValid p →
    s.operands.keyData.length = k.bytes → (m = .ecb ∨ s.operands.ivData.length = b.bytes) →
    ∃ r, exec (.config b.bytes k.bytes p m.code.toNat) s =
        .next (answered s s.inputs (some r) .ok []) ∧
      r.bsz = b ∧ r.ksz = k ∧ r.poly = p ∧ r.mode = m ∧ r.key = s.operands.keyData ∧ r.Inv) ∧
  (∀ (s : State) (r : CipherRegs), s.regs = some r → s.operands.keyData.length = r.ksz.bytes →
    exec .loadKey s = .next (answered s s.inputs
      (some { r with
        key := s.operands.keyData
        rk := keyExpand r.sbox r.bsz r.ksz s.operands.keyData }) .ok [])) ∧
  (∀ (s : State) (r : CipherRegs), s.regs = some r →
    (r.mode = .ecb → exec .loadIv s = .next (answered s s.inputs (some r) .ok [])) ∧
    (r.mode ≠ .ecb → s.operands.ivData.length = r.bsz.bytes →
      exec .loadIv s = .next (answered s s.inputs
        (some { r with iv := some s.operands.ivData }) .ok [])))

/-- 42_config.md R105: no command but CONFIG writes CFG_MODE, CFG_BSZ, CFG_KSZ or CFG_POLY. -/
def Obligations.OnlyConfigChangesTheConfiguration : Prop :=
  ∀ (i : Instr) (s t : State), (∀ bsz ksz poly mode, i ≠ .config bsz ksz poly mode) →
    exec i s = .next t →
    t.regs.map (·.mode) = s.regs.map (·.mode) ∧ t.regs.map (·.bsz) = s.regs.map (·.bsz) ∧
    t.regs.map (·.ksz) = s.regs.map (·.ksz) ∧ t.regs.map (·.poly) = s.regs.map (·.poly)

/-- While CFG_VALID = 0 LOAD_KEY, LOAD_IV, ENCRYPT and DECRYPT answer ERR_NOT_CONFIGURED, whatever their
operand vectors hold, and write nothing (10_state.md R10, 70_reset_and_hazards.md R147). -/
def Obligations.UnconfiguredCoreAnswersNotConfigured : Prop :=
  ∀ (i : Instr) (s : State), s.cfgValid = false → i ∈ [.loadKey, .loadIv, .encrypt, .decrypt] →
    exec i s = .next (answered s s.inputs s.regs .errNotConfigured [])

/-- 60_exceptions.md R126: a command, legal or not, that answers any status other than OK writes no register
and answers an empty result. -/
def Obligations.FailedCommandsWriteNothing : Prop :=
  ∀ (s t : State) (c : Command) (rest : List HostEvent) (status : Status) (result : ByteVec),
    s.inputs = .command c :: rest → step s = .next t →
    t.responses = s.responses ++ [⟨status, result⟩] → status ≠ .ok →
    t.regs = s.regs ∧ result = []

/-! ### ENCRYPT and DECRYPT -/

/-- The pseudocode of 43_modes.md R110 with the mode rules R112, R114, R116 and R118: ENCRYPT's checks in
order, and in each mode the result, the IV left, and every other register but STATE unchanged. A core
configured in CBC, CFB or OFB mode has an IV (10_state.md R20), which the mode clauses name. -/
def Obligations.EncryptAnswersItsRule : Prop :=
  ∀ (s : State) (c : Command) (rest : List HostEvent),
    s.inputs = .command c :: rest → c.word.extractLsb' 28 4 = 0x7 →
    (c.word.extractLsb' 0 28 ≠ 0 → step s = .next (answered s rest s.regs .errIllegal [])) ∧
    (c.word.extractLsb' 0 28 = 0 →
      (s.regs = none → step s = .next (answered s rest none .errNotConfigured [])) ∧
      ∀ r data, s.regs = some r → data = c.operands.data →
        (data.length ≠ r.bsz.bytes → step s = .next (answered s rest (some r) .errBlock [])) ∧
        (data.length = r.bsz.bytes →
          (r.mode = .ecb → ∃ w, step s = .next (answered s rest
            (some { r with working := w }) .ok (blockEncrypt r data))) ∧
          (∀ iv, r.iv = some iv →
            (r.mode = .cbc → ∃ w, step s = .next (answered s rest
              (some { r with iv := some (blockEncrypt r (xorVec data iv)), working := w }) .ok
              (blockEncrypt r (xorVec data iv)))) ∧
            (r.mode = .cfb → ∃ w, step s = .next (answered s rest
              (some { r with iv := some (xorVec data (blockEncrypt r iv)), working := w }) .ok
              (xorVec data (blockEncrypt r iv)))) ∧
            (r.mode = .ofb → ∃ w, step s = .next (answered s rest
              (some { r with iv := some (blockEncrypt r iv), working := w }) .ok
              (xorVec data (blockEncrypt r iv)))))))

/-- The pseudocode of 43_modes.md R111 with the mode rules R113, R115, R117 and R119: DECRYPT's checks in
order, and in each mode the result, the IV left, and every other register but STATE unchanged. -/
def Obligations.DecryptAnswersItsRule : Prop :=
  ∀ (s : State) (c : Command) (rest : List HostEvent),
    s.inputs = .command c :: rest → c.word.extractLsb' 28 4 = 0x8 →
    (c.word.extractLsb' 0 28 ≠ 0 → step s = .next (answered s rest s.regs .errIllegal [])) ∧
    (c.word.extractLsb' 0 28 = 0 →
      (s.regs = none → step s = .next (answered s rest none .errNotConfigured [])) ∧
      ∀ r data, s.regs = some r → data = c.operands.data →
        (data.length ≠ r.bsz.bytes → step s = .next (answered s rest (some r) .errBlock [])) ∧
        (data.length = r.bsz.bytes →
          (r.mode = .ecb → ∃ w, step s = .next (answered s rest
            (some { r with working := w }) .ok (blockDecrypt r data))) ∧
          (∀ iv, r.iv = some iv →
            (r.mode = .cbc → ∃ w, step s = .next (answered s rest
              (some { r with iv := some data, working := w }) .ok
              (xorVec (blockDecrypt r data) iv))) ∧
            (r.mode = .cfb → ∃ w, step s = .next (answered s rest
              (some { r with iv := some data, working := w }) .ok
              (xorVec data (blockEncrypt r iv)))) ∧
            (r.mode = .ofb → ∃ w, step s = .next (answered s rest
              (some { r with iv := some (blockEncrypt r iv), working := w }) .ok
              (xorVec data (blockEncrypt r iv)))))))

/-- Where ENCRYPT and DECRYPT complete: on every configured core that meets the invariant, with a block of
CFG_BSZ bytes, in all four modes; they answer OK and CFG_BSZ bytes, and of the registers only IV (outside
ECB) and STATE may change (43_modes.md R110, R111). -/
def Obligations.BlockCommandsComplete : Prop :=
  ∀ (i : Instr) (s : State) (r : CipherRegs), i = .encrypt ∨ i = .decrypt → s.Inv →
    s.regs = some r → s.operands.data.length = r.bsz.bytes →
    ∃ result iv w, exec i s =
        .next (answered s s.inputs (some { r with iv := iv, working := w }) .ok result) ∧
      result.length = r.bsz.bytes ∧ (r.mode = .ecb → iv = r.iv)

/-- 43_modes.md R120: a host encrypts blocks with ENCRYPT, restores the IV the stream started with (by
LOAD_IV or by a CONFIG identical to the one in force), and decrypts the ciphertexts in order; then every
DECRYPT returns its block, in ECB and CBC when the S-box is a bijection, in CFB and OFB always. -/
def Obligations.StreamRoundTrip : Prop :=
  ∀ (s : State) (r : CipherRegs) (v : ByteVec) (blocks : List ByteVec) (restore : Command),
    s.Inv → s.regs = some r → (∀ p ∈ blocks, p.length = r.bsz.bytes) →
    (r.mode = .ecb ∨ r.iv = some v) →
    (r.mode = .ecb ∨ r.mode = .cbc → Function.Bijective (lookup r.sbox)) →
    (restore = loadIvCommand v ∨ restore = configAgain r v) →
    s.inputs = blocks.map (fun p => .command (encryptCommand p)) →
    ∃ (t u : State) (ciphers : List ByteVec),
      Host.Core.run Sys2Proof.core blocks.length s = .next t ∧
      t.responses = s.responses ++ ciphers.map (fun x => ⟨.ok, x⟩) ∧
      ciphers.length = blocks.length ∧
      Host.Core.run Sys2Proof.core (ciphers.length + 1)
        { t with inputs := .command restore ::
            ciphers.map (fun x => .command (decryptCommand x)) } = .next u ∧
      u.responses = t.responses ++ ⟨.ok, []⟩ :: blocks.map (fun p => ⟨.ok, p⟩)

/-- 43_modes.md R121: one block with IV v gives `DATA ⊕ BlockEncrypt(v)` in CFB and in OFB; CBC with an
all-zero IV gives the ECB result, `BlockEncrypt(DATA)`; afterwards OFB leaves `BlockEncrypt(v)` in IV and
CFB the ciphertext. -/
def Obligations.SingleBlockEquivalences : Prop :=
  ∀ (s : State) (r : CipherRegs) (v data : ByteVec), data = s.operands.data →
    data.length = r.bsz.bytes → v.length = r.bsz.bytes →
    (∃ t q, exec .encrypt (inMode s r .cfb (some v)) = .next t ∧ t.regs = some q ∧
      t.responses = s.responses ++ [⟨.ok, xorVec data (blockEncrypt r v)⟩] ∧
      q.iv = some (xorVec data (blockEncrypt r v))) ∧
    (∃ t q, exec .encrypt (inMode s r .ofb (some v)) = .next t ∧ t.regs = some q ∧
      t.responses = s.responses ++ [⟨.ok, xorVec data (blockEncrypt r v)⟩] ∧
      q.iv = some (blockEncrypt r v)) ∧
    (∃ t, exec .encrypt (inMode s r .cbc (some (List.replicate r.bsz.bytes 0))) = .next t ∧
      t.responses = s.responses ++ [⟨.ok, blockEncrypt r data⟩]) ∧
    (∃ t, exec .encrypt (inMode s r .ecb none) = .next t ∧
      t.responses = s.responses ++ [⟨.ok, blockEncrypt r data⟩])

/-- 43_modes.md R122: two ENCRYPT commands with the same block, back to back, on a core whose S-box is a
bijection: the two ciphertexts are equal in CBC exactly when E(P ⊕ v) = v, in CFB exactly when
P ⊕ E(v) = v, in OFB exactly when E(v) = v, and in ECB always. -/
def Obligations.RepeatedBlockCiphertexts : Prop :=
  ∀ (s t u : State) (r : CipherRegs) (v x y : ByteVec), s.Inv → s.regs = some r →
    Function.Bijective (lookup r.sbox) → (r.mode = .ecb ∨ r.iv = some v) →
    exec .encrypt s = .next t → t.responses = s.responses ++ [⟨.ok, x⟩] →
    exec .encrypt { t with operands := s.operands } = .next u →
    u.responses = t.responses ++ [⟨.ok, y⟩] →
    (r.mode = .cbc → (x = y ↔ blockEncrypt r (xorVec s.operands.data v) = v)) ∧
    (r.mode = .cfb → (x = y ↔ xorVec s.operands.data (blockEncrypt r v) = v)) ∧
    (r.mode = .ofb → (x = y ↔ blockEncrypt r v = v)) ∧
    (r.mode = .ecb → x = y)

/-- 70_reset_and_hazards.md R150: a host can compute the IV every successful chained command leaves: the
ciphertext returned by CBC or CFB encryption, the ciphertext sent to CBC or CFB decryption, and
`DATA ⊕ RESULT` in OFB. -/
def Obligations.HostCanComputeTheIv : Prop :=
  ∀ (i : Instr) (s t : State) (r q : CipherRegs) (x : ByteVec), s.Inv → s.regs = some r →
    exec i s = .next t → t.regs = some q → t.responses = s.responses ++ [⟨.ok, x⟩] →
    (i = .encrypt → r.mode = .cbc ∨ r.mode = .cfb → q.iv = some x) ∧
    (i = .decrypt → r.mode = .cbc ∨ r.mode = .cfb → q.iv = some s.operands.data) ∧
    (i = .encrypt ∨ i = .decrypt → r.mode = .ofb → q.iv = some (xorVec s.operands.data x))

/-! ### Whole-machine rules -/

/-- ENCRYPT in every mode, and DECRYPT in CFB and OFB, never read INVSBOX (10_state.md R19, 43_modes.md R111):
with any other inverse table in its place they answer the same and leave the same registers but for that
table. So no answer of theirs depends on the OPEN table INV_SBOX_FILL. -/
def Obligations.InverseTableUnreadOutsideEcbCbcDecrypt : Prop :=
  ∀ (i : Instr) (s t : State) (r : CipherRegs) (table : ByteVec), s.regs = some r →
    i = .encrypt ∨ (i = .decrypt ∧ (r.mode = .cfb ∨ r.mode = .ofb)) → exec i s = .next t →
    exec i { s with regs := some { r with invSbox := table } } =
      .next { t with regs := t.regs.map fun q => { q with invSbox := table } }

/-- 10_state.md R25: apart from the results of ENCRYPT and DECRYPT no response depends on KEY, RK, SBOX,
INVSBOX, the bytes of IV or STATE: on two configured cores with the same sizes, polynomial and mode,
every command answers the same status, and every command but those two the same result. -/
def Obligations.SecretsStayOutOfOtherResponses : Prop :=
  ∀ (i : Instr) (s s' t t' : State) (r r' : CipherRegs) (x x' : Response), s.regs = some r →
    s'.regs = some r' → SamePublic r r' → s.operands = s'.operands → exec i s = .next t →
    exec i s' = .next t' → t.responses = s.responses ++ [x] → t'.responses = s'.responses ++ [x'] →
    x.status = x'.status ∧ (i ≠ .encrypt → i ≠ .decrypt → x.result = x'.result)

/-- What every command leaves unchanged when it answers (the "state written" lines of 40_gf_arith.md R68 to
R70, 42_config.md R100, R103, R104 and 43_modes.md R110 to R119): what is presented, and the responses
given before; a GF command every register; LOAD_KEY every register but KEY and RK; LOAD_IV every register
but IV, and IV too in ECB mode; ENCRYPT and DECRYPT every register but IV and STATE, and IV too in ECB
mode; and no command but CONFIG configures an unconfigured core. There is no memory to change. -/
def Obligations.CommandFrame : Prop :=
  ∀ (i : Instr) (s t : State), exec i s = .next t →
    t.inputs = s.inputs ∧ (∃ x, t.responses = s.responses ++ [x]) ∧
    ((∀ bsz ksz poly mode, i ≠ .config bsz ksz poly mode) → s.regs = none → t.regs = none) ∧
    ((∃ p a b, i = .gfAdd p a b) ∨ (∃ p a b, i = .gfMul p a b) ∨ (∃ p a, i = .gfInv p a) →
      t.regs = s.regs) ∧
    ∀ r, s.regs = some r →
      (i = .loadKey → ∃ key rk, t.regs = some { r with key := key, rk := rk }) ∧
      (i = .loadIv → ∃ iv, t.regs = some { r with iv := iv } ∧ (r.mode = .ecb → iv = r.iv)) ∧
      (i = .encrypt ∨ i = .decrypt → ∃ iv w,
        t.regs = some { r with iv := iv, working := w } ∧ (r.mode = .ecb → iv = r.iv))
end

