-- ==== Sys2Proof/Laws/State.lean ====
section
/-! SUPPORT. One lemma per field per update of the state. -/

namespace Sys2Proof.Machine

section
variable (s : State) (c : Command) (rest : List HostEvent) (st : Status) (v : ByteVec)
  (r : CipherRegs) (o : BlockOutcome)

@[simp] theorem accept_regs : (s.accept c rest).regs = s.regs := rfl
@[simp] theorem accept_operands : (s.accept c rest).operands = c.operands := rfl
@[simp] theorem accept_inputs : (s.accept c rest).inputs = rest := rfl
@[simp] theorem accept_responses : (s.accept c rest).responses = s.responses := rfl

@[simp] theorem respond_regs : (s.respond st v).regs = s.regs := rfl
@[simp] theorem respond_operands : (s.respond st v).operands = .none := rfl
@[simp] theorem respond_inputs : (s.respond st v).inputs = s.inputs := rfl
@[simp] theorem respond_responses :
    (s.respond st v).responses = s.responses ++ [⟨st, v⟩] := rfl

@[simp] theorem raise_regs : (s.raise st).regs = s.regs := rfl
@[simp] theorem raise_operands : (s.raise st).operands = .none := rfl
@[simp] theorem raise_inputs : (s.raise st).inputs = s.inputs := rfl
@[simp] theorem raise_responses : (s.raise st).responses = s.responses ++ [⟨st, []⟩] := rfl

@[simp] theorem illegal_regs : s.illegal.regs = s.regs := rfl
@[simp] theorem illegal_operands : s.illegal.operands = .none := rfl
@[simp] theorem illegal_inputs : s.illegal.inputs = s.inputs := rfl
@[simp] theorem illegal_responses :
    s.illegal.responses = s.responses ++ [⟨.errIllegal, []⟩] := rfl

@[simp] theorem resetCore_regs : (s.resetCore rest).regs = none := rfl
@[simp] theorem resetCore_operands : (s.resetCore rest).operands = .none := rfl
@[simp] theorem resetCore_inputs : (s.resetCore rest).inputs = rest := rfl
@[simp] theorem resetCore_responses : (s.resetCore rest).responses = s.responses := rfl

@[simp] theorem commit_regs : (s.commit r).regs = some r := rfl
@[simp] theorem commit_operands : (s.commit r).operands = s.operands := rfl
@[simp] theorem commit_inputs : (s.commit r).inputs = s.inputs := rfl
@[simp] theorem commit_responses : (s.commit r).responses = s.responses := rfl

@[simp] theorem reset_regs : State.reset.regs = none := rfl
@[simp] theorem reset_operands : State.reset.operands = .none := rfl
@[simp] theorem reset_inputs : State.reset.inputs = [] := rfl
@[simp] theorem reset_responses : State.reset.responses = [] := rfl

@[simp] theorem withKey_bsz : (r.withKey v).bsz = r.bsz := rfl
@[simp] theorem withKey_ksz : (r.withKey v).ksz = r.ksz := rfl
@[simp] theorem withKey_poly : (r.withKey v).poly = r.poly := rfl
@[simp] theorem withKey_mode : (r.withKey v).mode = r.mode := rfl
@[simp] theorem withKey_key : (r.withKey v).key = v := rfl
@[simp] theorem withKey_rk : (r.withKey v).rk = keyExpand r.sbox r.bsz r.ksz v := rfl
@[simp] theorem withKey_sbox : (r.withKey v).sbox = r.sbox := rfl
@[simp] theorem withKey_invSbox : (r.withKey v).invSbox = r.invSbox := rfl
@[simp] theorem withKey_iv : (r.withKey v).iv = r.iv := rfl
@[simp] theorem withKey_working : (r.withKey v).working = r.working := rfl

@[simp] theorem afterBlock_bsz : (r.afterBlock o).bsz = r.bsz := rfl
@[simp] theorem afterBlock_ksz : (r.afterBlock o).ksz = r.ksz := rfl
@[simp] theorem afterBlock_poly : (r.afterBlock o).poly = r.poly := rfl
@[simp] theorem afterBlock_mode : (r.afterBlock o).mode = r.mode := rfl
@[simp] theorem afterBlock_key : (r.afterBlock o).key = r.key := rfl
@[simp] theorem afterBlock_rk : (r.afterBlock o).rk = r.rk := rfl
@[simp] theorem afterBlock_sbox : (r.afterBlock o).sbox = r.sbox := rfl
@[simp] theorem afterBlock_invSbox : (r.afterBlock o).invSbox = r.invSbox := rfl
@[simp] theorem afterBlock_working : (r.afterBlock o).working = some o.working := rfl
@[simp] theorem afterBlock_iv : (r.afterBlock o).iv = (o.newIv <|> r.iv) := rfl

end

section
variable (b k : Size) (p : Byte) (m : Mode) (key iv : ByteVec)

@[simp] theorem configured_bsz : (configured b k p m key iv).bsz = b := rfl
@[simp] theorem configured_ksz : (configured b k p m key iv).ksz = k := rfl
@[simp] theorem configured_poly : (configured b k p m key iv).poly = p := rfl
@[simp] theorem configured_mode : (configured b k p m key iv).mode = m := rfl
@[simp] theorem configured_key : (configured b k p m key iv).key = key := rfl
@[simp] theorem configured_rk :
    (configured b k p m key iv).rk = keyExpand (makeSBox p) b k key := rfl
@[simp] theorem configured_sbox : (configured b k p m key iv).sbox = makeSBox p := rfl
@[simp] theorem configured_invSbox :
    (configured b k p m key iv).invSbox = makeInvSBox p (makeSBox p) := rfl
@[simp] theorem configured_iv :
    (configured b k p m key iv).iv = if m = .ecb then none else some iv := rfl
@[simp] theorem configured_working : (configured b k p m key iv).working = none := rfl

end

end Sys2Proof.Machine
end

