-- ==== Sys2Proof/Laws/Ops.lean ====
section
/-! SUPPORT. For each shared operation, one lemma that says everything it can do. -/

namespace Sys2Proof.Machine

/-! ### Sizes, modes and fields -/

/-- A byte count names a size exactly when it is that size's number of bytes. -/
theorem sizeOfCount_eq_some_iff {n : Nat} {b : Size} : sizeOfCount n = some b ↔ n = b.bytes := by
  constructor
  · intro h
    unfold sizeOfCount at h
    split at h <;> simp_all <;> subst h <;> rfl
  · rintro rfl
    cases b <;> rfl

/-- A byte count names no size exactly when it is none of 16, 24 and 32. -/
theorem sizeOfCount_eq_none_iff {n : Nat} : sizeOfCount n = none ↔ n ∉ [16, 24, 32] := by
  unfold sizeOfCount
  split <;> simp_all

@[simp] theorem sizeOfCount_bytes (b : Size) : sizeOfCount b.bytes = some b :=
  sizeOfCount_eq_some_iff.mpr rfl

/-- A MODE field names a mode exactly when it is that mode's number. -/
theorem modeOfField_eq_some_iff {n : Nat} {m : Mode} :
    modeOfField n = some m ↔ n = m.code.toNat := by
  constructor
  · intro h
    unfold modeOfField at h
    split at h <;> simp_all <;> subst h <;> rfl
  · rintro rfl
    cases m <;> rfl

/-- A MODE field names no mode exactly when it is above 3. -/
theorem modeOfField_eq_none_iff {n : Nat} : modeOfField n = none ↔ 3 < n := by
  unfold modeOfField
  split <;> simp_all
  omega

@[simp] theorem modeOfField_code (m : Mode) : modeOfField m.code.toNat = some m :=
  modeOfField_eq_some_iff.mpr rfl

theorem Size.bytes_pos (b : Size) : 0 < b.bytes := by cases b <;> decide

theorem Size.bytes_eq_four_mul_columns (b : Size) : b.bytes = 4 * b.columns := by
  cases b <;> rfl

theorem roundCount_pos (b k : Size) : 0 < roundCount b k := by
  cases b <;> cases k <;> decide

/-! ### The checks -/

/-- CONFIG accepts exactly the arguments its six checks let through (42_config.md R100). -/
theorem checkConfig_ok_iff {bsz ksz mode : Nat} {p : Byte} {o : Operands} {b k : Size} {m : Mode} :
    checkConfig bsz ksz p mode o = .ok (b, k, m) ↔
      bsz = b.bytes ∧ ksz = k.bytes ∧ o.keyData.length = k.bytes ∧ polyValid p = true ∧
        mode = m.code.toNat ∧ (m = .ecb ∨ o.ivData.length = b.bytes) := by
  rw [← sizeOfCount_eq_some_iff, ← modeOfField_eq_some_iff (n := mode)]
  have hk : sizeOfCount ksz = some k ↔ ksz = k.bytes := sizeOfCount_eq_some_iff
  unfold checkConfig
  cases hb : sizeOfCount bsz with
  | none => simp
  | some b' =>
    have hb' := sizeOfCount_eq_some_iff.mp hb
    cases hk' : sizeOfCount ksz with
    | none => rw [hk'] at hk; simp at hk; simp [hk]
    | some k' =>
      have hk'' := sizeOfCount_eq_some_iff.mp hk'
      cases hm : modeOfField mode with
      | none => simp; split_ifs <;> simp
      | some m' =>
        rw [hk'] at hk
        simp only [Option.some.injEq] at hk ⊢
        by_cases h1 : o.keyData.length = ksz <;> by_cases h2 : polyValid p = true <;>
          by_cases h3 : m' = .ecb <;> by_cases h4 : o.ivData.length = bsz <;>
          simp [h1, h2, h3, h4] <;> grind

/-- A GF command's polynomial is accepted exactly when it is valid. -/
theorem checkPoly_ok_iff {p : Byte} : checkPoly p = .ok () ↔ polyValid p = true := by
  unfold checkPoly
  split <;> simp_all

/-- LOAD_KEY is accepted exactly on a configured core with a key of CFG_KSZ bytes. -/
theorem checkLoadKey_ok_iff {s : State} {r : CipherRegs} :
    checkLoadKey s = .ok r ↔
      s.regs = some r ∧ s.operands.keyData.length = r.ksz.bytes := by
  unfold checkLoadKey checkConfigured
  cases s.regs with
  | none => simp
  | some q => by_cases h : s.operands.keyData.length = q.ksz.bytes <;> simp [h] <;> grind

/-- LOAD_IV is accepted exactly on a configured core, in ECB mode or with an IV of CFG_BSZ bytes. -/
theorem checkLoadIv_ok_iff {s : State} {r : CipherRegs} :
    checkLoadIv s = .ok r ↔
      s.regs = some r ∧ (r.mode = .ecb ∨ s.operands.ivData.length = r.bsz.bytes) := by
  unfold checkLoadIv checkConfigured
  cases s.regs with
  | none => simp
  | some q =>
    by_cases h : q.mode = .ecb <;> by_cases h' : s.operands.ivData.length = q.bsz.bytes <;>
      simp [h, h'] <;> grind

/-- ENCRYPT and DECRYPT are accepted exactly on a configured core with a block of CFG_BSZ bytes. -/
theorem checkBlock_ok_iff {s : State} {r : CipherRegs} :
    checkBlock s = .ok r ↔ s.regs = some r ∧ s.operands.data.length = r.bsz.bytes := by
  unfold checkBlock checkConfigured
  cases s.regs with
  | none => simp
  | some q => by_cases h : s.operands.data.length = q.bsz.bytes <;> simp [h] <;> grind

/-! ### What the meanings can do -/

/-- A GF command either raises ERR_POLY or answers its byte. -/
theorem gfRespond_cases (p v : Byte) (s : State) :
    (polyValid p = true ∧ gfRespond p v s = s.respond .ok [v]) ∨
      (polyValid p = false ∧ gfRespond p v s = s.raise .errPoly) := by
  unfold gfRespond checkPoly
  cases polyValid p <;> simp

/-- A block command that ends does so with a mode rule's outcome. -/
theorem finishBlock_next_iff {s t : State} {r : CipherRegs} {o : Option BlockOutcome} :
    finishBlock s r o = .next t ↔
      ∃ out, o = some out ∧ t = (s.commit (r.afterBlock out)).respond .ok out.result := by
  cases o <;> simp [finishBlock, eq_comm]

/-- A mode whose IV is present where it needs one always has an outcome for ENCRYPT. -/
theorem encryptBlock_isSome (r : CipherRegs) (data : ByteVec)
    (h : r.mode = .ecb ∨ r.iv.isSome = true) : (encryptBlock r data).isSome = true := by
  unfold encryptBlock
  cases hm : r.mode <;> simp_all

/-- A mode whose IV is present where it needs one always has an outcome for DECRYPT. -/
theorem decryptBlock_isSome (r : CipherRegs) (data : ByteVec)
    (h : r.mode = .ecb ∨ r.iv.isSome = true) : (decryptBlock r data).isSome = true := by
  unfold decryptBlock
  cases hm : r.mode <;> simp_all

/-- Every answer of `exec` leaves what is presented alone, gives one response, and clears the operand
vectors. -/
theorem exec_next_interface {i : Instr} {s t : State} (h : exec i s = .next t) :
    t.inputs = s.inputs ∧ t.operands = .none ∧ ∃ resp, t.responses = s.responses ++ [resp] := by
  cases i with
  | gfAdd p a b =>
    obtain rfl := Host.Outcome.next.inj h
    rcases gfRespond_cases p (gfAdd a b) s with ⟨-, e⟩ | ⟨-, e⟩ <;> simp [e]
  | gfMul p a b =>
    obtain rfl := Host.Outcome.next.inj h
    rcases gfRespond_cases p (gfMul a b p) s with ⟨-, e⟩ | ⟨-, e⟩ <;> simp [e]
  | gfInv p a =>
    obtain rfl := Host.Outcome.next.inj h
    rcases gfRespond_cases p (gfInv a p) s with ⟨-, e⟩ | ⟨-, e⟩ <;> simp [e]
  | config bsz ksz p m =>
    simp only [exec, execConfig] at h
    split at h <;> obtain rfl := Host.Outcome.next.inj h <;> simp
  | loadKey =>
    simp only [exec, execLoadKey] at h
    split at h <;> obtain rfl := Host.Outcome.next.inj h <;> simp
  | loadIv =>
    simp only [exec, execLoadIv] at h
    split at h
    · obtain rfl := Host.Outcome.next.inj h; simp
    · split at h <;> obtain rfl := Host.Outcome.next.inj h <;> simp
  | encrypt =>
    simp only [exec, execEncrypt] at h
    split at h
    · obtain rfl := Host.Outcome.next.inj h; simp
    · obtain ⟨out, -, rfl⟩ := finishBlock_next_iff.mp h; simp
  | decrypt =>
    simp only [exec, execDecrypt] at h
    split at h
    · obtain rfl := Host.Outcome.next.inj h; simp
    · obtain ⟨out, -, rfl⟩ := finishBlock_next_iff.mp h; simp

/-- What a step can do: idle, reset, run a legal word's instruction, or answer an illegal word. -/
theorem step_cases (s : State) :
    (s.inputs = [] ∧ step s = .next s) ∨
    (∃ e rest, s.inputs = e :: rest ∧ e.isAnswered = false ∧ step s = .next (s.resetCore rest)) ∨
    (∃ c rest i, s.inputs = .command c :: rest ∧ decode c.word = .ok i ∧
      step s = exec i (s.accept c rest)) ∨
    (∃ c rest x, s.inputs = .command c :: rest ∧ decode c.word = .error x ∧
      step s = .next (s.accept c rest).illegal) := by
  unfold step
  rcases hs : s.inputs with _ | ⟨e, rest⟩
  · simp
  · right
    cases e with
    | reset => exact .inl ⟨_, _, rfl, rfl, rfl⟩
    | resetDuring c => exact .inl ⟨_, _, rfl, rfl, rfl⟩
    | command c =>
      right
      cases hd : decode c.word with
      | ok i => exact .inl ⟨c, rest, i, rfl, hd, by simp [hd]⟩
      | error x => exact .inr ⟨c, rest, x, rfl, hd, by simp [hd]⟩

/-! ### The registers a CONFIG makes -/

/-- A configuration that passes CONFIG's checks meets the invariant of 10_state.md R24. -/
theorem configured_inv {b k : Size} {p : Byte} {m : Mode} {key iv : ByteVec}
    (hp : polyValid p = true) (hk : key.length = k.bytes) (hi : m = .ecb ∨ iv.length = b.bytes) :
    (configured b k p m key iv).Inv where
  polyValid := hp
  keyLength := hk
  sboxEq := rfl
  invSboxEq := rfl
  rkEq := rfl
  ivPresent := by by_cases h : m = .ecb <;> simp [h]
  ivLength := by
    intro v hv
    by_cases h : m = .ecb <;> simp [h] at hv
    subst hv
    simpa [h] using hi
  workingLength := by simp

end Sys2Proof.Machine
end

