-- ==== Sys2Proof/Laws/Bytes.lean ====
section
/-! SUPPORT. Lengths and entries of the byte vectors the engine makes, and the tables' small lemmas. -/

namespace Sys2Proof.Machine

@[simp] theorem byteAt_nil (j : Nat) : byteAt [] j = 0 := rfl

theorem byteAt_eq_getElem {v : ByteVec} {j : Nat} (h : j < v.length) : byteAt v j = v[j] := by
  simp [byteAt, List.getD_eq_getElem?_getD, h]

/-- An entry of a vector given by a formula for each index. -/
@[simp] theorem byteAt_map_range (f : Nat → Byte) {n j : Nat} (h : j < n) :
    byteAt ((List.range n).map f) j = f j := by
  rw [byteAt_eq_getElem (by simpa using h)]
  simp

@[simp] theorem xorVec_length (s t : ByteVec) : (xorVec s t).length = min s.length t.length := by
  simp [xorVec]

@[simp] theorem makeSBox_length (p : Byte) : (makeSBox p).length = 256 := by simp [makeSBox]

@[simp] theorem makeInvSBox_length (p : Byte) (t : ByteVec) : (makeInvSBox p t).length = 256 := by
  unfold makeInvSBox
  split <;> simp

@[simp] theorem tileKey_length (b : Size) (key : ByteVec) : (tileKey b key).length = b.bytes := by
  simp [tileKey]

@[simp] theorem addRoundKey_length (s k : ByteVec) : (addRoundKey s k).length = s.length := by
  simp [addRoundKey]

@[simp] theorem subBytes_length (t s : ByteVec) : (subBytes t s).length = s.length := by
  simp [subBytes]

@[simp] theorem shiftRows_length (b : Size) (s : ByteVec) : (shiftRows b s).length = b.bytes := by
  simp [shiftRows]

@[simp] theorem invShiftRows_length (b : Size) (s : ByteVec) :
    (invShiftRows b s).length = b.bytes := by
  simp [invShiftRows]

@[simp] theorem mixColumns_length (p : Byte) (s : ByteVec) :
    (mixColumns p s).length = s.length := by
  simp [mixColumns, mixWith]

@[simp] theorem invMixColumns_length (p : Byte) (s : ByteVec) :
    (invMixColumns p s).length = s.length := by
  simp [invMixColumns, mixWith]

@[simp] theorem encryptRound_length (r : CipherRegs) (s : ByteVec) (n : Nat) :
    (encryptRound r s n).length = r.bsz.bytes := by
  simp only [encryptRound]
  split <;> simp

@[simp] theorem decryptRound_length (r : CipherRegs) (s : ByteVec) (n : Nat) :
    (decryptRound r s n).length = r.bsz.bytes := by
  simp only [decryptRound]
  split <;> simp

/-- A round function whose every result has length `n` gives length `n` after at least one round. -/
theorem foldl_length_of_round {n : Nat} (f : ByteVec → Nat → ByteVec)
    (hf : ∀ s i, (f s i).length = n) : ∀ (l : List Nat) (s : ByteVec),
    l ≠ [] → (l.foldl f s).length = n
  | [], _, h => absurd rfl h
  | [i], s, _ => hf s i
  | _ :: j :: l, s, _ => foldl_length_of_round f hf (j :: l) _ (by simp)

theorem CipherRegs.nr_pos (r : CipherRegs) : 0 < r.nr := roundCount_pos _ _

/-- BlockEncrypt answers CFG_BSZ bytes (41_rijndael.md R88). -/
@[simp] theorem blockEncrypt_length (r : CipherRegs) (v : ByteVec) :
    (blockEncrypt r v).length = r.bsz.bytes := by
  refine foldl_length_of_round _ (encryptRound_length r) _ _ ?_
  have := r.nr_pos
  simp; omega

/-- BlockDecrypt answers CFG_BSZ bytes (41_rijndael.md R92). -/
@[simp] theorem blockDecrypt_length (r : CipherRegs) (v : ByteVec) :
    (blockDecrypt r v).length = r.bsz.bytes := by
  refine foldl_length_of_round _ (decryptRound_length r) _ _ ?_
  have := r.nr_pos
  simp; omega

/-- BlockEncrypt reads CFG_BSZ, CFG_KSZ, CFG_POLY, SBOX and RK, and no other register. -/
theorem blockEncrypt_congr {r q : CipherRegs} (hb : r.bsz = q.bsz) (hk : r.ksz = q.ksz)
    (hp : r.poly = q.poly) (hs : r.sbox = q.sbox) (hrk : r.rk = q.rk) (v : ByteVec) :
    blockEncrypt r v = blockEncrypt q v := by
  cases r; cases q
  simp only at hb hk hp hs hrk
  subst hb hk hp hs hrk
  rfl

/-- BlockDecrypt reads CFG_BSZ, CFG_KSZ, CFG_POLY, INVSBOX and RK, and no other register. -/
theorem blockDecrypt_congr {r q : CipherRegs} (hb : r.bsz = q.bsz) (hk : r.ksz = q.ksz)
    (hp : r.poly = q.poly) (hs : r.invSbox = q.invSbox) (hrk : r.rk = q.rk) (v : ByteVec) :
    blockDecrypt r v = blockDecrypt q v := by
  cases r; cases q
  simp only at hb hk hp hs hrk
  subst hb hk hp hs hrk
  rfl

/-! ### The values a table takes -/

theorem testBit_foldl_values (t : ByteVec) (m y : Nat) :
    (t.foldl (fun m (z : Byte) => m ||| (1 <<< z.toNat)) m).testBit y =
      (m.testBit y || t.any fun z => z.toNat == y) := by
  induction t generalizing m with
  | nil => simp
  | cons z t ih =>
    rw [List.foldl_cons, ih, List.any_cons, Nat.testBit_or, Nat.one_shiftLeft,
      Nat.testBit_two_pow, Bool.or_assoc]
    rfl

/-- A table is accepted as a bijection exactly when every byte occurs in it (41_rijndael.md R77). -/
theorem isBijection_iff (t : ByteVec) : isBijection t = true ↔ ∀ y : Byte, y ∈ t := by
  have key : ∀ y : Nat, (valuesTaken t).testBit y = t.any fun z => z.toNat == y := by
    intro y
    simp [valuesTaken, testBit_foldl_values]
  simp only [isBijection, beq_iff_eq]
  constructor
  · intro h y
    have hy := key y.toNat
    rw [h, Nat.testBit_two_pow_sub_one] at hy
    have : (decide (y.toNat < 256)) = true := by simpa using y.isLt
    rw [this] at hy
    obtain ⟨z, hz, e⟩ := List.any_eq_true.mp hy.symm
    have e' : z = y := BitVec.eq_of_toNat_eq (by simpa using e)
    exact e' ▸ hz
  · intro h
    apply Nat.eq_of_testBit_eq
    intro y
    rw [key, Nat.testBit_two_pow_sub_one, Bool.eq_iff_iff, List.any_eq_true, decide_eq_true_iff]
    constructor
    · rintro ⟨z, -, e⟩
      have := z.isLt
      simp at e
      omega
    · intro hy
      exact ⟨BitVec.ofNat 8 y, h _, by simp [Nat.mod_eq_of_lt hy]⟩

/-- For a table of 256 bytes, "every byte occurs" is that reading the table is a bijection
(41_rijndael.md R77). -/
theorem isBijection_iff_bijective {t : ByteVec} (h : t.length = 256) :
    isBijection t = true ↔ Function.Bijective (lookup t) := by
  have hs : isBijection t = true ↔ Function.Surjective (lookup t) := by
    rw [isBijection_iff]
    constructor
    · intro hm y
      obtain ⟨n, hn, e⟩ := List.getElem_of_mem (hm y)
      refine ⟨BitVec.ofNat 8 n, ?_⟩
      have hn' : n < 256 := h ▸ hn
      rw [lookup, BitVec.toNat_ofNat, Nat.mod_eq_of_lt hn', byteAt_eq_getElem hn, e]
    · intro hs y
      obtain ⟨x, rfl⟩ := hs y
      have hx : x.toNat < t.length := by have := x.isLt; omega
      rw [lookup, byteAt_eq_getElem hx]
      exact List.getElem_mem hx
  have : Finite Byte := Finite.of_injective BitVec.toFin fun _ _ => BitVec.eq_of_toFin_eq
  rw [hs]
  exact ⟨fun h => ⟨Finite.injective_iff_surjective.mpr h, h⟩, fun h => h.surjective⟩

end Sys2Proof.Machine
end

