-- ==== Sys2Proof/Laws/Claims.lean ====
section
/-! SUPPORT. The notions the claims are written in, tied to the model's definitions. -/

namespace Sys2Proof.Machine

/-- The model's validity check is 40_gf_arith.md R62 as the claims write it. -/
theorem polyValid_iff (p : Byte) : polyValid p = true ↔ Claims.PolyValid p := by
  unfold Claims.PolyValid
  revert p
  decide +kernel

open Polynomial in
/-- M(0x1b) = x^8 + x^4 + x^3 + x + 1 is irreducible (40_gf_arith.md R73): no monic polynomial of degree 1
to 4 times a monic cofactor has its coefficients. -/
theorem irreducible_modulusPoly_1b : Irreducible (Claims.modulusPoly 0x1b) := by
  have hb : Claims.modulusPoly 0x1b = X ^ 8 + X ^ 4 + X ^ 3 + X + 1 := by
    simp [Claims.modulusPoly, Claims.bytePoly, Finset.sum_range_succ]
    ring
  have hm : (X ^ 8 + X ^ 4 + X ^ 3 + X + 1 : (ZMod 2)[X]).Monic := by monicity!
  have hd : (X ^ 8 + X ^ 4 + X ^ 3 + X + 1 : (ZMod 2)[X]).natDegree = 8 := by compute_degree!
  rw [hb, hm.irreducible_iff_lt_natDegree_lt
    (by intro h; simpa [hd] using congrArg natDegree h)]
  intro q hq hmem ⟨c, hc⟩
  rw [hd] at hmem
  simp only [Finset.mem_Ioc] at hmem
  have hcm : c.Monic := hq.of_mul_monic_left (hc ▸ hm)
  have hcd : q.natDegree + c.natDegree = 8 := by rw [← hq.natDegree_mul hcm, ← hc, hd]
  have h : ∀ n, (q * c).coeff n = (X ^ 8 + X ^ 4 + X ^ 3 + X + 1 : (ZMod 2)[X]).coeff n :=
    fun n => by rw [hc]
  have hq0 : ∀ n, q.natDegree < n → q.coeff n = 0 := fun n => coeff_eq_zero_of_natDegree_lt
  have hc0 : ∀ n, c.natDegree < n → c.coeff n = 0 := fun n => coeff_eq_zero_of_natDegree_lt
  have hq1 : q.coeff q.natDegree = 1 := hq
  have hc1 : c.coeff c.natDegree = 1 := hcm
  simp only [coeff_mul, Finset.Nat.sum_antidiagonal_eq_sum_range_succ_mk, Finset.sum_range_succ,
    coeff_add, coeff_X_pow, coeff_X, coeff_one] at h
  have h0 := h 0; have h1 := h 1; have h2 := h 2; have h3 := h 3; have h4 := h 4
  have h5 := h 5; have h6 := h 6; have h7 := h 7
  clear h hc hb hm hd hq hcm
  obtain ⟨hl, hu⟩ := hmem
  generalize q.natDegree = d at *
  generalize c.natDegree = e at *
  simp only [Finset.sum_range_succ, Finset.sum_range_zero] at h0 h1 h2 h3 h4 h5 h6 h7
  generalize q.coeff = f at *
  generalize c.coeff = g at *
  have hd : d = 1 ∧ e = 7 ∨ d = 2 ∧ e = 6 ∨ d = 3 ∧ e = 5 ∨ d = 4 ∧ e = 4 := by omega
  rcases hd with ⟨rfl, rfl⟩ | ⟨rfl, rfl⟩ | ⟨rfl, rfl⟩ | ⟨rfl, rfl⟩ <;>
    simp [hq0, hc0, hq1, hc1] at h0 h1 h2 h3 h4 h5 h6 h7 <;> clear hq0 hc0 hq1 hc1 <;>
    obtain ⟨hf, hg⟩ := h0 <;> simp only [hf, hg, one_mul, mul_one] at h1 h2 h3 h4 h5 h6 h7 <;>
    have h := And.intro h1 <| And.intro h2 <| And.intro h3 <| And.intro h4 <| And.intro h5 <| And.intro h6 h7 <;>
    clear hf hg h1 h2 h3 h4 h5 h6 h7
  · generalize g 1 = g1 at *
    generalize g 2 = g2 at *
    generalize g 3 = g3 at *
    generalize g 4 = g4 at *
    generalize g 5 = g5 at *
    generalize g 6 = g6 at *
    revert g1 g2 g3 g4 g5 g6
    decide
  · generalize f 1 = f1 at *
    generalize g 1 = g1 at *
    generalize g 2 = g2 at *
    generalize g 3 = g3 at *
    generalize g 4 = g4 at *
    generalize g 5 = g5 at *
    revert f1 g1 g2 g3 g4 g5
    decide
  · generalize f 1 = f1 at *
    generalize f 2 = f2 at *
    generalize g 1 = g1 at *
    generalize g 2 = g2 at *
    generalize g 3 = g3 at *
    generalize g 4 = g4 at *
    revert f1 f2 g1 g2 g3 g4
    decide
  · generalize f 1 = f1 at *
    generalize f 2 = f2 at *
    generalize f 3 = f3 at *
    generalize g 1 = g1 at *
    generalize g 2 = g2 at *
    generalize g 3 = g3 at *
    revert f1 f2 f3 g1 g2 g3
    decide

end Sys2Proof.Machine
end

