-- ==== Sys2Proof/Laws/Decode.lean ====
section
/-! SUPPORT. What `decode` reads from a word of each opcode, and what well-formedness says. -/

namespace Sys2Proof

theorem wellFormed_config_iff {bsz ksz mode : Nat} {poly : Byte} :
    (Instr.config bsz ksz poly mode).WellFormed ↔ bsz < 256 ∧ ksz < 256 ∧ mode < 16 := by
  simp [Instr.WellFormed, Instr.wellFormed, and_assoc]

section
variable {w : Word}

theorem decode_of_opc_gfAdd (h : w.extractLsb' 28 4 = 0x1) :
    decode w = decodeG w (.gfAdd (polyField w) (aField w) (bField w)) := by
  simp [decode, opcField, h]

theorem decode_of_opc_gfMul (h : w.extractLsb' 28 4 = 0x2) :
    decode w = decodeG w (.gfMul (polyField w) (aField w) (bField w)) := by
  simp [decode, opcField, h]

theorem decode_of_opc_gfInv (h : w.extractLsb' 28 4 = 0x3) :
    decode w = if bField w = 0 then decodeG w (.gfInv (polyField w) (aField w))
      else .error .reservedFieldB := by
  simp [decode, opcField, h]

theorem decode_of_opc_config (h : w.extractLsb' 28 4 = 0x4) :
    decode w = .ok (.config (bszField w) (kszField w) (polyField w) (modeField w)) := by
  simp [decode, opcField, h]

theorem decode_of_opc_loadKey (h : w.extractLsb' 28 4 = 0x5) :
    decode w = decodeD w .loadKey := by
  simp [decode, opcField, h]

theorem decode_of_opc_loadIv (h : w.extractLsb' 28 4 = 0x6) :
    decode w = decodeD w .loadIv := by
  simp [decode, opcField, h]

theorem decode_of_opc_encrypt (h : w.extractLsb' 28 4 = 0x7) :
    decode w = decodeD w .encrypt := by
  simp [decode, opcField, h]

theorem decode_of_opc_decrypt (h : w.extractLsb' 28 4 = 0x8) :
    decode w = decodeD w .decrypt := by
  simp [decode, opcField, h]

/-- A format G word is legal exactly when Z is 0. -/
theorem decodeG_ok_iff {i j : Instr} :
    decodeG w i = .ok j ↔ w.extractLsb' 24 4 = 0 ∧ i = j := by
  unfold decodeG zFieldG
  split <;> simp_all

/-- A format D word is legal exactly when Z is 0. -/
theorem decodeD_ok_iff {i j : Instr} :
    decodeD w i = .ok j ↔ w.extractLsb' 0 28 = 0 ∧ i = j := by
  unfold decodeD zFieldD
  split <;> simp_all

end

end Sys2Proof
end

