-- ==== Sys2Proof/Laws/PerInstr.lean ====
section
/-! SUPPORT. Facts about an instruction as syntax, one lemma per constructor. -/

namespace Sys2Proof.Laws

/-- A word of each row of the opcode map has that row's match under its mask (30_encoding.md R51). -/
def EncodesItsRow.Statement (i : Instr) : Prop :=
  i.WellFormed → encode i &&& i.opMask = i.opMatch

theorem EncodesItsRow.gfAdd (poly a b : Byte) : EncodesItsRow.Statement (.gfAdd poly a b) := by
  intro _
  ext j hj
  simp only [encode, Instr.opMask, Instr.opMatch, fieldAt]
  interval_cases j <;> simp

theorem EncodesItsRow.gfMul (poly a b : Byte) : EncodesItsRow.Statement (.gfMul poly a b) := by
  intro _
  ext j hj
  simp only [encode, Instr.opMask, Instr.opMatch, fieldAt]
  interval_cases j <;> simp

theorem EncodesItsRow.gfInv (poly a : Byte) : EncodesItsRow.Statement (.gfInv poly a) := by
  intro _
  ext j hj
  simp only [encode, Instr.opMask, Instr.opMatch, fieldAt]
  interval_cases j <;> simp

theorem EncodesItsRow.config (bsz ksz : Nat) (poly : Byte) (mode : Nat) :
    EncodesItsRow.Statement (.config bsz ksz poly mode) := by
  intro _
  ext j hj
  simp only [encode, Instr.opMask, Instr.opMatch, fieldAt]
  interval_cases j <;> simp

theorem EncodesItsRow.loadKey : EncodesItsRow.Statement .loadKey := by
  intro _; decide

theorem EncodesItsRow.loadIv : EncodesItsRow.Statement .loadIv := by
  intro _; decide

theorem EncodesItsRow.encrypt : EncodesItsRow.Statement .encrypt := by
  intro _; decide

theorem EncodesItsRow.decrypt : EncodesItsRow.Statement .decrypt := by
  intro _; decide

end Sys2Proof.Laws
end

