-- ==== Sys2Proof/Tests/Slice0.lean ====
section
/-! SUPPORT. The model's own tests. Every expected value is taken from the specification: the encodings of
30_encoding.md R48 to R58 and the vectors of 95_test_vectors.md named at each test. -/

namespace Sys2Proof.Tests

open Sys2Proof.Machine

/-! ### WellFormed: an ill-formed term for each check -/

theorem test_bsz_too_wide : ¬ (Instr.config 256 16 0x1b 0).WellFormed := by decide
theorem test_ksz_too_wide : ¬ (Instr.config 16 256 0x1b 0).WellFormed := by decide
theorem test_mode_too_wide : ¬ (Instr.config 16 16 0x1b 16).WellFormed := by decide
theorem test_widest_config : (Instr.config 255 255 0xff 15).WellFormed := by decide

/-! ### Decode: a word of every command, written out field by field (R48 to R50) -/

theorem test_decode_gfAdd :
    decode 0b0001_0000_00011011_01010111_10000011 = .ok (.gfAdd 0x1b 0x57 0x83) := by decide
theorem test_decode_gfMul :
    decode 0b0010_0000_00011101_10000000_00000010 = .ok (.gfMul 0x1d 0x80 0x02) := by decide
theorem test_decode_gfInv :
    decode 0b0011_0000_00011011_01010011_00000000 = .ok (.gfInv 0x1b 0x53) := by decide
theorem test_decode_config :
    decode 0b0100_0011_00011101_00010000_00100000 = .ok (.config 32 16 0x1d 3) := by decide
theorem test_decode_loadKey :
    decode 0b0101_0000000000000000000000000000 = .ok .loadKey := by decide
theorem test_decode_loadIv :
    decode 0b0110_0000000000000000000000000000 = .ok .loadIv := by decide
theorem test_decode_encrypt :
    decode 0b0111_0000000000000000000000000000 = .ok .encrypt := by decide
theorem test_decode_decrypt :
    decode 0b1000_0000000000000000000000000000 = .ok .decrypt := by decide
theorem test_decode_reserved_opcodes :
    decode 0x00000000 = .error (.reservedOpcode 0) ∧
    decode 0xF0000000 = .error (.reservedOpcode 15) := by decide
theorem test_decode_reserved_fields :
    decode 0x111B5783 = .error .reservedFieldZ ∧ decode 0x301B5301 = .error .reservedFieldB ∧
    decode 0x70000001 = .error .reservedFieldZ := by decide
theorem test_decodeTableWord :
    decodeTableWord 32 0x201B5783 = some (.gfMul 0x1b 0x57 0x83) ∧
    decodeTableWord 32 0x90000000 = none := by decide
theorem test_pseudo_instructions :
    (AsmLine.gfSqr 0x1b 0x80).assemble.word = 0x201B8080 ∧
    (AsmLine.aes128 1 [0x00] [0x01]).assemble = ⟨0x411B1010, ⟨[0x00], [0x01], []⟩⟩ ∧
    (AsmLine.rewind [0x02]).assemble = ⟨0x60000000, ⟨[], [0x02], []⟩⟩ := by decide

/-! ### One step -/

/-- The core with one command presented. -/
def presenting (s : State) (w : Word) (key iv data : ByteVec) : State :=
  { s with inputs := [.command ⟨w, ⟨key, iv, data⟩⟩] }

/-- The last response a step from `s` gives. -/
def answerOf (s : State) : Option Response :=
  match step s with
  | .next t => t.responses.getLast?
  | .fault _ => none
  | .refused _ => none

/-- The registers after a step from `s`. -/
def regsAfter (s : State) : Option CipherRegs :=
  match step s with
  | .next t => t.regs
  | .fault _ => none
  | .refused _ => none

/-- The key 2b7e151628aed2a6abf7158809cf4f3c of 95_test_vectors.md V-KS-2. -/
def keyB : ByteVec :=
  [0x2b, 0x7e, 0x15, 0x16, 0x28, 0xae, 0xd2, 0xa6, 0xab, 0xf7, 0x15, 0x88, 0x09, 0xcf, 0x4f, 0x3c]

/-- `seq(n)` of 95_test_vectors.md. -/
def seq (n : Nat) : ByteVec := (List.range n).map (BitVec.ofNat 8)

/-- The first plaintext block of V-MODE-1 to V-MODE-4. -/
def plain1 : ByteVec :=
  [0x6b, 0xc1, 0xbe, 0xe2, 0x2e, 0x40, 0x9f, 0x96, 0xe9, 0x3d, 0x7e, 0x11, 0x73, 0x93, 0x17, 0x2a]

/-- A core configured for 16-byte blocks and keys under the polynomial 0x1b, with `keyB`. -/
def ready (m : Mode) (iv : ByteVec) : State :=
  { State.reset with regs := some (configured .b16 .b16 0x1b m keyB iv) }

/-- V-GF-7: `GF_ADD 0x1b, 0x57, 0x83` before any CONFIG. -/
theorem test_gfAdd : answerOf (presenting .reset 0x101B5783 [] [] []) = some ⟨.ok, [0xd4]⟩ := by
  decide +kernel

/-- V-GF-7: `GF_MUL 0x1b, 0x57, 0x83`, and the same under the invalid polynomial 0x1f. -/
theorem test_gfMul :
    answerOf (presenting .reset 0x201B5783 [] [] []) = some ⟨.ok, [0xc1]⟩ ∧
    answerOf (presenting .reset 0x201F5783 [] [] []) = some ⟨.errPoly, []⟩ := by decide +kernel

/-- V-GF-7: `GF_INV` under 0x1b and under the reducible 0x05, and the priority of ERR_ILLEGAL. -/
theorem test_gfInv :
    answerOf (presenting .reset 0x301B5300 [] [] []) = some ⟨.ok, [0xca]⟩ ∧
    answerOf (presenting .reset 0x30050200 [] [] []) = some ⟨.ok, [0x45]⟩ ∧
    answerOf (presenting .reset 0x30005301 [] [] []) = some ⟨.errIllegal, []⟩ := by decide +kernel

/-- V-ERR-7, V-ERR-13 to V-ERR-15 and V-ERR-9, V-ERR-5: CONFIG's errors in their order. -/
theorem test_config_errors :
    answerOf (presenting .reset 0x401B100F (seq 16) [] []) = some ⟨.errBlockSize, []⟩ ∧
    answerOf (presenting .reset 0x40001110 (seq 16) [] []) = some ⟨.errKeySize, []⟩ ∧
    answerOf (presenting .reset 0x40001010 (seq 1) [] []) = some ⟨.errKey, []⟩ ∧
    answerOf (presenting .reset 0x44001010 (seq 16) [] []) = some ⟨.errPoly, []⟩ ∧
    answerOf (presenting .reset 0x441B1010 (seq 16) [] []) = some ⟨.errMode, []⟩ ∧
    answerOf (presenting .reset 0x411B1010 (seq 16) [] []) = some ⟨.errIv, []⟩ := by decide +kernel

/-- V-KS-3, row B = 24, K = 16: the round count, the tiled round key 0 and round key 1 after
`CONFIG 24, 16, 0x1b, CFB`. -/
theorem test_config_registers :
    ((regsAfter (presenting .reset 0x421B1018 (seq 16) (seq 24) [])).map fun r =>
      r.nr == 12 && r.mode == .cfb && r.iv == some (seq 24) && r.roundKey 0 == seq 16 ++ seq 8 &&
        (r.roundKey 1).take 8 == [0x6a, 0x6e, 0xc7, 0xf1, 0x6e, 0x6b, 0xc1, 0xf6]) =
      some true := by decide +kernel

/-- V-KS-2: `LOAD_KEY key=2b7e…3c` leaves the first two columns of RK[1] = a0fafe17 88542cb1; V-ERR-10
without CONFIG. -/
theorem test_loadKey :
    (regsAfter (presenting (ready .ecb []) 0x50000000 keyB [] [])).map
        (fun r => (r.roundKey 1).take 8) =
      some [0xa0, 0xfa, 0xfe, 0x17, 0x88, 0x54, 0x2c, 0xb1] ∧
    answerOf (presenting .reset 0x50000000 keyB [] []) = some ⟨.errNotConfigured, []⟩ := by
  decide +kernel

/-- V-CFG-2 and V-ERR-16: in ECB mode LOAD_IV ignores its operand; in CBC an absent IV is ERR_IV. -/
theorem test_loadIv :
    answerOf (presenting (ready .ecb []) 0x60000000 [] [0x01, 0x02] []) = some ⟨.ok, []⟩ ∧
    (regsAfter (presenting (ready .ecb []) 0x60000000 [] [0x01, 0x02] [])).map (·.iv) =
      some none ∧
    answerOf (presenting (ready .cbc (seq 16)) 0x60000000 [] [] []) = some ⟨.errIv, []⟩ := by
  decide +kernel

/-- V-MODE-2, block 1: CBC encryption and the IV it leaves. -/
theorem test_encrypt_cbc :
    (answerOf (presenting (ready .cbc (seq 16)) 0x70000000 [] [] plain1),
      (regsAfter (presenting (ready .cbc (seq 16)) 0x70000000 [] [] plain1)).map (·.iv)) =
    (some ⟨.ok, [0x76, 0x49, 0xab, 0xac, 0x81, 0x19, 0xb2, 0x46, 0xce, 0xe9, 0x8e, 0x9b, 0x12,
        0xe9, 0x19, 0x7d]⟩,
      some (some [0x76, 0x49, 0xab, 0xac, 0x81, 0x19, 0xb2, 0x46, 0xce, 0xe9, 0x8e, 0x9b, 0x12,
        0xe9, 0x19, 0x7d])) := by decide +kernel

/-- V-ERR-1: a block of 15 bytes is ERR_BLOCK and leaves the IV. -/
theorem test_encrypt_short_block :
    answerOf (presenting (ready .cbc (seq 16)) 0x70000000 [] [] (seq 15)) = some ⟨.errBlock, []⟩ ∧
    (regsAfter (presenting (ready .cbc (seq 16)) 0x70000000 [] [] (seq 15))).map (·.iv) =
      some (some (seq 16)) := by decide +kernel

/-- V-MODE-1, block 1: ECB decryption. -/
theorem test_decrypt_ecb :
    answerOf (presenting (ready .ecb []) 0x80000000 [] []
      [0x3a, 0xd7, 0x7b, 0xb4, 0x0d, 0x7a, 0x36, 0x60, 0xa8, 0x9e, 0xca, 0xf3, 0x24, 0x66, 0xef,
        0x97]) = some ⟨.ok, plain1⟩ := by decide +kernel

/-- V-MODE-3, block 1: CFB decryption, which leaves the ciphertext consumed in IV. -/
theorem test_decrypt_cfb :
    (answerOf (presenting (ready .cfb (seq 16)) 0x80000000 [] []
        [0x3b, 0x3f, 0xd9, 0x2e, 0xb7, 0x2d, 0xad, 0x20, 0x33, 0x34, 0x49, 0xf8, 0xe8, 0x3c, 0xfb,
          0x4a])).map (·.result) = some plain1 := by decide +kernel

/-- V-SR-3: ShiftRows of a 32-byte block uses the offsets 0, 1, 3, 4. -/
theorem test_shiftRows_b32 :
    (shiftRows .b32 (seq 32)).take 8 = [0, 5, 14, 19, 4, 9, 18, 23] ∧
    (invShiftRows .b32 (seq 32)).take 8 = [0, 29, 22, 19, 4, 1, 26, 23] := by decide +kernel

/-- V-MC-1, second row: MixColumns under 0x1b and under 0x05, and InvMixColumns back. -/
theorem test_mixColumns :
    mixColumns 0x1b [0xf2, 0x0a, 0x22, 0x5c] = [0x9f, 0xdc, 0x58, 0x9d] ∧
    mixColumns 0x05 [0xf2, 0x0a, 0x22, 0x5c] = [0x81, 0xdc, 0x58, 0x83] ∧
    invMixColumns 0x1b [0x9f, 0xdc, 0x58, 0x9d] = [0xf2, 0x0a, 0x22, 0x5c] := by decide +kernel

/-- 70_reset_and_hazards.md R146: a reset during ENCRYPT leaves the core unconfigured, with no response. -/
theorem test_reset_during_command :
    (match step { ready .cbc (seq 16) with
        inputs := [.resetDuring ⟨0x70000000, ⟨[], [], plain1⟩⟩] } with
      | .next t => some (t.cfgValid, t.responses)
      | .fault _ => none
      | .refused _ => none) = some (false, []) := by decide +kernel

/-- `withFetchWord` puts the word where the next step takes it, right after reset. -/
theorem test_withFetchWord :
    answerOf (State.reset.withFetchWord 32 0x201B5783) = some ⟨.ok, [0xc1]⟩ ∧
    answerOf (State.reset.withFetchWord 32 0x70000000) = some ⟨.errNotConfigured, []⟩ := by
  decide +kernel

end Sys2Proof.Tests
end

