-- ==== Sys2Proof/Tests/Witnesses.lean ====
section
/-! SUPPORT. For every claim with hypotheses, a concrete state and operands that meet them all, one for each
clause, at a boundary of its range. -/

namespace Sys2Proof.Tests

open Sys2Proof.Machine Sys2Proof.Claims

/-! ### Pieces the witnesses share -/

theorem polyValid_1b : PolyValid 0x1b := (polyValid_iff _).mp (by decide)
theorem polyValid_ff : PolyValid 0xff := (polyValid_iff _).mp (by decide)
theorem not_polyValid_1f : ¬ PolyValid 0x1f := fun h => absurd ((polyValid_iff _).mpr h) (by decide)

/-- The registers of `ready m iv`. -/
def readyRegs (m : Mode) (iv : ByteVec) : CipherRegs := configured .b16 .b16 0x1b m keyB iv

theorem ready_regs (m : Mode) (iv : ByteVec) : (ready m iv).regs = some (readyRegs m iv) := rfl

theorem readyRegs_inv {m : Mode} {iv : ByteVec} (h : m = .ecb ∨ iv.length = 16) :
    (readyRegs m iv).Inv :=
  configured_inv (by decide) (by decide) h

theorem ready_inv {m : Mode} {iv : ByteVec} (h : m = .ecb ∨ iv.length = 16) :
    (ready m iv).Inv := by
  intro r hr
  obtain rfl := Option.some.inj hr
  exact readyRegs_inv h

/-- `ready m iv` with a block in the operand vectors. -/
def readyFor (m : Mode) (iv block : ByteVec) : State :=
  { ready m iv with operands := ⟨[], [], block⟩ }

theorem readyFor_inv {m : Mode} {iv block : ByteVec} (h : m = .ecb ∨ iv.length = 16) :
    (readyFor m iv block).Inv := ready_inv h

theorem sbox_1b_bijective : Function.Bijective (lookup (makeSBox 0x1b)) :=
  (isBijection_iff_bijective (makeSBox_length _)).mp (by decide +kernel)

/-- Under 0x05 the bytes 0x02 and 0x11 have the same S-box entry. -/
theorem sbox_05_not_bijective : ¬ Function.Bijective (lookup (makeSBox 0x05)) := fun h =>
  absurd (h.injective (a₁ := 0x02) (a₂ := 0x11) (by decide +kernel)) (by decide)

/-! ### Encoding -/

theorem witness_DecodeEncodeRoundTrip :
    (Instr.config 255 255 0xff 15).WellFormed ∧ (Instr.config 0 0 0 0).WellFormed ∧
    (Instr.gfInv 0xff 0xff).WellFormed := by decide

theorem witness_EncodeDecodeRoundTrip :
    decode 0x4FFFFFFF = .ok (.config 255 255 0xff 15) ∧
    decode 0x30FFFF00 = .ok (.gfInv 0xff 0xff) := by decide

theorem witness_DecodeSelectsByMaskAndMatch :
    (0x0FFFFFFF#32 &&& 0xF0000000 = 0x00000000) ∧ 0x90000000#32 ≤ 0x90000000#32 ∧
    0x90000000#32 ≤ 0xFFFFFFFF#32 := by decide

theorem witness_IllegalWordsAnswerErrIllegal :
    (0x0FFFFFFF#32).extractLsb' 28 4 = 0x0 ∧ 0x9#4 ≤ (0x90000000#32).extractLsb' 28 4 ∧
    ((0x211B5783#32).extractLsb' 28 4 ∈ [0x1#4, 0x2#4, 0x3#4] ∧
      (0x211B5783#32).extractLsb' 24 4 ≠ 0) ∧
    ((0x301B5301#32).extractLsb' 28 4 = 0x3 ∧ (0x301B5301#32).extractLsb' 0 8 ≠ 0) ∧
    ((0x88000000#32).extractLsb' 28 4 ∈ [0x5#4, 0x6#4, 0x7#4, 0x8#4] ∧
      (0x88000000#32).extractLsb' 0 28 ≠ 0) ∧
    (presenting .reset 0x301B5301 [] [] []).inputs = [.command ⟨0x301B5301, .none⟩] := by decide

/-! ### The step -/

theorem witness_StepRunsDecodedCommand :
    (presenting .reset 0x201B5783 [] [] []).inputs = [.command ⟨0x201B5783, .none⟩] ∧
    decode 0x201B5783 = .ok (.gfMul 0x1b 0x57 0x83) := by decide

theorem witness_ResetAbandonsTheCommand :
    ({ State.reset with inputs := [.reset] } : State).inputs = [.reset] ∧
    ({ State.reset with inputs := [.resetDuring ⟨0, .none⟩] } : State).inputs =
      [.resetDuring ⟨0, .none⟩] := by decide

theorem witness_IdleCoreKeepsItsState : State.reset.inputs = [] := rfl

theorem witness_EveryCommandGetsOneResponse :
    (presenting (ready .cbc (seq 16)) 0x70000000 [] [] plain1).Inv ∧
    (presenting (ready .cbc (seq 16)) 0x70000000 [] [] plain1).inputs =
      [.command ⟨0x70000000, ⟨[], [], plain1⟩⟩] ∧
    (0x70000000#32).extractLsb' 28 4 ∈ [0x7#4, 0x8#4] ∧
    (0x101B5783#32).extractLsb' 28 4 ∈ [0x1#4, 0x2#4, 0x3#4] ∧
    (0x60000000#32).extractLsb' 28 4 ∈ [0x4#4, 0x5#4, 0x6#4] :=
  ⟨ready_inv (.inr rfl), rfl, by decide, by decide, by decide⟩

theorem witness_StepKeepsInvariant :
    (presenting .reset 0x411B1010 keyB (seq 16) []).Inv ∧
    ∃ t r, step (presenting .reset 0x411B1010 keyB (seq 16) []) = .next t ∧ t.regs = some r :=
  ⟨fun _ h => by simp [presenting] at h, _, _, rfl, rfl⟩

theorem witness_StepNeverStops : (presenting (ready .ofb (seq 16)) 0x80000000 [] [] plain1).Inv :=
  ready_inv (.inr rfl)

theorem witness_RunAnswersEveryCommand :
    ({ ready .cbc (seq 16) with
        inputs := [.command (encryptCommand plain1), .reset, .resetDuring (encryptCommand []),
          .command (encryptCommand plain1)] } : State).Inv :=
  ready_inv (.inr rfl)

/-! ### GF commands and arithmetic -/

theorem witness_GfAddAnswersItsRule :
    (presenting .reset 0x10FF00FF [] [] []).inputs = [.command ⟨0x10FF00FF, .none⟩] ∧
    (0x10FF00FF#32).extractLsb' 28 4 = 0x1 ∧ (0x10FF00FF#32).extractLsb' 24 4 = 0 ∧
    PolyValid ((0x10FF00FF#32).extractLsb' 16 8) ∧
    (0x111B5783#32).extractLsb' 28 4 = 0x1 ∧ (0x111B5783#32).extractLsb' 24 4 ≠ 0 ∧
    (0x101F5783#32).extractLsb' 28 4 = 0x1 ∧ (0x101F5783#32).extractLsb' 24 4 = 0 ∧
    ¬ PolyValid ((0x101F5783#32).extractLsb' 16 8) ∧ (0x101B5783#32).extractLsb' 28 4 = 0x1 :=
  ⟨rfl, by decide, by decide, polyValid_ff, by decide, by decide, by decide, by decide,
    not_polyValid_1f, by decide⟩

theorem witness_GfMulAnswersItsRule :
    (presenting .reset 0x20FF00FF [] [] []).inputs = [.command ⟨0x20FF00FF, .none⟩] ∧
    (0x20FF00FF#32).extractLsb' 28 4 = 0x2 ∧ (0x20FF00FF#32).extractLsb' 24 4 = 0 ∧
    PolyValid ((0x20FF00FF#32).extractLsb' 16 8) ∧
    (0x281B5783#32).extractLsb' 28 4 = 0x2 ∧ (0x281B5783#32).extractLsb' 24 4 ≠ 0 ∧
    (0x201F5783#32).extractLsb' 28 4 = 0x2 ∧ (0x201F5783#32).extractLsb' 24 4 = 0 ∧
    ¬ PolyValid ((0x201F5783#32).extractLsb' 16 8) ∧ (0x201B5783#32).extractLsb' 28 4 = 0x2 ∧
    PolyValid 0x1b :=
  ⟨rfl, by decide, by decide, polyValid_ff, by decide, by decide, by decide, by decide,
    not_polyValid_1f, by decide, polyValid_1b⟩

theorem witness_GfInvAnswersItsRule :
    (presenting .reset 0x30FFFF00 [] [] []).inputs = [.command ⟨0x30FFFF00, .none⟩] ∧
    (0x30FFFF00#32).extractLsb' 28 4 = 0x3 ∧ (0x30FFFF00#32).extractLsb' 24 4 = 0 ∧
    (0x30FFFF00#32).extractLsb' 0 8 = 0 ∧ PolyValid ((0x30FFFF00#32).extractLsb' 16 8) ∧
    (0x301B5301#32).extractLsb' 28 4 = 0x3 ∧ (0x301B5301#32).extractLsb' 0 8 ≠ 0 ∧
    (0x311B5300#32).extractLsb' 28 4 = 0x3 ∧ (0x311B5300#32).extractLsb' 24 4 ≠ 0 ∧
    (0x301F0000#32).extractLsb' 28 4 = 0x3 ∧ (0x301F0000#32).extractLsb' 24 4 = 0 ∧
    (0x301F0000#32).extractLsb' 0 8 = 0 ∧ ¬ PolyValid ((0x301F0000#32).extractLsb' 16 8) ∧
    (0x301B5300#32).extractLsb' 28 4 = 0x3 ∧ PolyValid 0x1b ∧ Irreducible (modulusPoly 0x1b) :=
  ⟨rfl, by decide, by decide, by decide, polyValid_ff, by decide, by decide, by decide, by decide,
    by decide, by decide, by decide, not_polyValid_1f, by decide, polyValid_1b,
    irreducible_modulusPoly_1b⟩

theorem witness_GfCommandsComplete : PolyValid 0x1b ∧ PolyValid 0xff := ⟨polyValid_1b, polyValid_ff⟩

theorem witness_GfRingLaws : PolyValid 0x1b ∧ PolyValid 0xff := ⟨polyValid_1b, polyValid_ff⟩

theorem witness_InverseLawIffIrreducible : PolyValid 0x1b ∧ (0x01 : Byte) ≠ 0 :=
  ⟨polyValid_1b, by decide⟩

/-! ### The block engine -/

theorem witness_SBoxEntriesAreAffineInverses : 0 < 8 ∧ 7 < 8 := by decide

theorem witness_InvSBoxInvertsOrIsOpen :
    ((makeSBox 0x1b).length = 256 ∧ Function.Bijective (lookup (makeSBox 0x1b))) ∧
    ((makeSBox 0x05).length = 256 ∧ ¬ Function.Bijective (lookup (makeSBox 0x05))) :=
  ⟨⟨makeSBox_length _, sbox_1b_bijective⟩, makeSBox_length _, sbox_05_not_bijective⟩

/-- The valid polynomials 0x03 (reducible) and 0x1b outside the nine, and 0xed among them. -/
theorem witness_SBoxBijectionByPolynomial :
    (∀ a : Byte, a ≠ 0 → gfMul a (gfInv a 0x1b) 0x1b = 1) ∧ (0xed : Byte) ∈ nineOpenPolys ∧
    PolyValid 0xed ∧ PolyValid 0x03 ∧ (0x03 : Byte) ∉ nineOpenPolys ∧
    PolyValid 0x1b ∧ (0x1b : Byte) ∉ nineOpenPolys :=
  ⟨by decide +kernel, by decide, (polyValid_iff _).mp (by decide), (polyValid_iff _).mp (by decide),
    by decide, polyValid_1b, by decide⟩

theorem witness_KeyScheduleFollowsItsEquations :
    (seq 16).length = Size.bytes .b16 ∧ (23 < Size.bytes .b24) ∧
    (1 ≤ roundCount .b24 .b16 ∧ 12 ≤ roundCount .b24 .b16) ∧
    (1 ≤ 5 ∧ 5 < Size.columns .b24 ∧ 3 < 4) ∧ seq 3 ∈ [seq 3] ∧
    max (Size.bytes .b16) (Size.bytes .b16) = 16 ∧ max (Size.bytes .b16) (Size.bytes .b24) = 24 ∧
    max (Size.bytes .b32) (Size.bytes .b24) = 32 := by decide

theorem witness_KeyScheduleIgnoresKeyBeyondBlock :
    (Size.bytes .b16 < Size.bytes .b24 ∧ (seq 24).length = Size.bytes .b24 ∧
      (seq 16 ++ seq 8).length = Size.bytes .b24 ∧ (seq 24).take 16 = (seq 16 ++ seq 8).take 16) ∧
    (roundCount .b32 .b16 = roundCount .b32 .b32 ∧
      tileKey .b32 (seq 16) = tileKey .b32 (seq 16 ++ seq 16)) ∧
    ((seq 24).length = 24 ∧ (seq 32).length = 32 ∧ (seq 24).take 16 = (seq 32).take 16 ∧
      12 ≤ 12) := by decide +kernel

theorem witness_ShiftRowsMovesColumns :
    (seq 32).length = Size.bytes .b32 ∧ 7 < Size.columns .b32 ∧ 3 < 4 ∧
    4 = [0, 1, if Size.b32 = .b32 then 3 else 2, if Size.b32 = .b32 then 4 else 3].getD 3 0 := by
  decide

theorem witness_MixColumnsWrittenOut :
    4 * 3 + 4 ≤ (seq 16).length ∧ 3 < 4 ∧
    ∀ i, (fun i => byteAt (seq 16) (4 * 3 + i % 4)) i = byteAt (seq 16) (4 * 3 + i % 4) :=
  ⟨by decide, by decide, fun _ => rfl⟩

theorem witness_RoundFunctionsUndone :
    (seq 24).length = Size.bytes .b24 ∧ (seq 24).length = (seq 24).length ∧
    (makeSBox 0x1b).length = 256 ∧ Function.Bijective (lookup (makeSBox 0x1b)) :=
  ⟨by decide, rfl, makeSBox_length _, sbox_1b_bijective⟩

theorem witness_InvMixColumnsUndoesMixColumns : PolyValid 0xff ∧ (seq 24).length % 4 = 0 :=
  ⟨polyValid_ff, by decide⟩

theorem witness_BlockOperationsFollowTheirRounds :
    15 < (seq 16).length ∧ 1 ≤ 1 ∧ 1 < (readyRegs .ecb []).nr ∧ 9 < (readyRegs .ecb []).nr := by
  decide

theorem witness_BlockDecryptUndoesBlockEncrypt :
    ((readyRegs .ecb []).Inv ∧ Function.Bijective (lookup (readyRegs .ecb []).sbox) ∧
      plain1.length = (readyRegs .ecb []).bsz.bytes) ∧
    ((configured .b24 .b24 0x05 .ecb (seq 24) []).Inv ∧
      ¬ Function.Bijective (lookup (configured .b24 .b24 0x05 .ecb (seq 24) []).sbox)) :=
  ⟨⟨readyRegs_inv (.inl rfl), sbox_1b_bijective, by decide⟩,
    configured_inv (by decide) (by decide) (.inl rfl), sbox_05_not_bijective⟩

/-! ### Configuration commands -/

/-- The fields of a CONFIG word as the claims read them: BSZ, KSZ, POLY, MODE. -/
def configFields (w : Word) : Nat × Nat × Byte × Nat :=
  ((w.extractLsb' 0 8).toNat, (w.extractLsb' 8 8).toNat, w.extractLsb' 16 8,
    (w.extractLsb' 24 4).toNat)

theorem witness_ConfigAnswersItsRule :
    ((0x431D1020#32).extractLsb' 28 4 = 0x4 ∧ (0x45001111#32).extractLsb' 28 4 = 0x4) ∧
    (presenting .reset 0x431D1020 (seq 16) (seq 32) []).inputs =
      [.command ⟨0x431D1020, ⟨seq 16, seq 32, []⟩⟩] ∧
    (configFields 0x45001111 = (17, 17, 0x00, 5) ∧ 17 ∉ [16, 24, 32]) ∧
    (configFields 0x401B1110 = (16, 17, 0x1b, 0) ∧ 16 ∈ [16, 24, 32]) ∧
    (configFields 0x401F1010 = (16, 16, 0x1f, 0) ∧ (seq 15).length ≠ 16 ∧ (seq 16).length = 16 ∧
      ¬ PolyValid 0x1f) ∧
    (configFields 0x441B1010 = (16, 16, 0x1b, 4) ∧ PolyValid 0x1b ∧ 3 < 4) ∧
    (configFields 0x431D1020 = (32, 16, 0x1d, 3) ∧ PolyValid 0x1d ∧ 3 ≤ 3 ∧ 3 ≠ 0 ∧
      (seq 31).length ≠ 32 ∧ (seq 32).length = 32) ∧
    (configFields 0x401B1010 = (16, 16, 0x1b, 0)) :=
  ⟨by decide, rfl, by decide, by decide, ⟨by decide, by decide, by decide, not_polyValid_1f⟩,
    ⟨by decide, polyValid_1b, by decide⟩,
    ⟨by decide, (polyValid_iff _).mp (by decide), by decide, by decide, by decide, by decide⟩,
    by decide⟩

theorem witness_LoadKeyAnswersItsRule :
    (presenting (ready .ecb []) 0x50000000 (seq 16) [] []).inputs =
      [.command ⟨0x50000000, ⟨seq 16, [], []⟩⟩] ∧
    (0x50000000#32).extractLsb' 28 4 = 0x5 ∧ (0x50000000#32).extractLsb' 0 28 = 0 ∧
    ((0x50000001#32).extractLsb' 28 4 = 0x5 ∧ (0x50000001#32).extractLsb' 0 28 ≠ 0) ∧
    State.reset.regs = none ∧ (ready .ecb []).regs = some (readyRegs .ecb []) ∧
    (seq 15).length ≠ (readyRegs .ecb []).ksz.bytes ∧
    (seq 16).length = (readyRegs .ecb []).ksz.bytes :=
  ⟨rfl, by decide, by decide, by decide, rfl, rfl, by decide, by decide⟩

theorem witness_LoadIvAnswersItsRule :
    (presenting (ready .ofb (seq 16)) 0x60000000 [] (seq 16) []).inputs =
      [.command ⟨0x60000000, ⟨[], seq 16, []⟩⟩] ∧
    (0x60000000#32).extractLsb' 28 4 = 0x6 ∧ (0x60000000#32).extractLsb' 0 28 = 0 ∧
    ((0x68000000#32).extractLsb' 28 4 = 0x6 ∧ (0x68000000#32).extractLsb' 0 28 ≠ 0) ∧
    State.reset.regs = none ∧
    ((ready .ecb []).regs = some (readyRegs .ecb []) ∧ (readyRegs .ecb []).mode = .ecb) ∧
    ((ready .ofb (seq 16)).regs = some (readyRegs .ofb (seq 16)) ∧
      (readyRegs .ofb (seq 16)).mode ≠ .ecb ∧
      (seq 17).length ≠ (readyRegs .ofb (seq 16)).bsz.bytes ∧
      (seq 16).length = (readyRegs .ofb (seq 16)).bsz.bytes) :=
  ⟨rfl, by decide, by decide, by decide, rfl, ⟨rfl, rfl⟩, rfl, by decide, by decide, by decide⟩

theorem witness_ConfigCommandsComplete :
    (PolyValid 0x1b ∧ (seq 32).length = Size.bytes .b32 ∧
      (Mode.ecb = .ecb ∨ ([] : ByteVec).length = Size.bytes .b24) ∧
      (Mode.cbc = .ecb ∨ (seq 24).length = Size.bytes .b24)) ∧
    ((ready .ecb []).regs = some (readyRegs .ecb []) ∧ (readyRegs .ecb []).mode = .ecb ∧
      keyB.length = (readyRegs .ecb []).ksz.bytes) ∧
    ((ready .cfb (seq 16)).regs = some (readyRegs .cfb (seq 16)) ∧
      (readyRegs .cfb (seq 16)).mode ≠ .ecb ∧
      (seq 16).length = (readyRegs .cfb (seq 16)).bsz.bytes) :=
  ⟨⟨polyValid_1b, by decide, by decide, by decide⟩, ⟨rfl, rfl, by decide⟩, rfl, by decide,
    by decide⟩

theorem witness_OnlyConfigChangesTheConfiguration :
    (∀ bsz ksz poly mode, Instr.encrypt ≠ .config bsz ksz poly mode) ∧
    ∃ t, exec .encrypt (readyFor .cbc (seq 16) plain1) = .next t :=
  ⟨by simp, _, rfl⟩

theorem witness_UnconfiguredCoreAnswersNotConfigured :
    State.reset.cfgValid = false ∧ Instr.decrypt ∈ [.loadKey, .loadIv, .encrypt, .decrypt] := by
  decide

theorem witness_FailedCommandsWriteNothing :
    (presenting (ready .cbc (seq 16)) 0x70000000 [] [] (seq 15)).inputs =
      [.command ⟨0x70000000, ⟨[], [], seq 15⟩⟩] ∧
    ∃ t, step (presenting (ready .cbc (seq 16)) 0x70000000 [] [] (seq 15)) = .next t ∧
      t.responses = [] ++ [⟨.errBlock, []⟩] ∧ Status.errBlock ≠ .ok :=
  ⟨rfl, _, rfl, rfl, by decide⟩

/-! ### ENCRYPT and DECRYPT -/

theorem witness_EncryptAnswersItsRule :
    (presenting (ready .cbc (seq 16)) 0x70000000 [] [] plain1).inputs =
      [.command ⟨0x70000000, ⟨[], [], plain1⟩⟩] ∧
    (0x70000000#32).extractLsb' 28 4 = 0x7 ∧ (0x70000000#32).extractLsb' 0 28 = 0 ∧
    ((0x70000001#32).extractLsb' 28 4 = 0x7 ∧ (0x70000001#32).extractLsb' 0 28 ≠ 0) ∧
    State.reset.regs = none ∧ (seq 15).length ≠ (readyRegs .ecb []).bsz.bytes ∧
    ((ready .ecb []).regs = some (readyRegs .ecb []) ∧ (readyRegs .ecb []).mode = .ecb ∧
      plain1.length = (readyRegs .ecb []).bsz.bytes) ∧
    (∀ m, m ≠ .ecb → (ready m (seq 16)).regs = some (readyRegs m (seq 16)) ∧
      (readyRegs m (seq 16)).mode = m ∧ (readyRegs m (seq 16)).iv = some (seq 16) ∧
      plain1.length = (readyRegs m (seq 16)).bsz.bytes) :=
  ⟨rfl, by decide, by decide, by decide, rfl, by decide, ⟨rfl, rfl, by decide⟩,
    fun m hm => ⟨rfl, rfl, by simp [readyRegs, hm], rfl⟩⟩

theorem witness_DecryptAnswersItsRule :
    (presenting (ready .cbc (seq 16)) 0x80000000 [] [] plain1).inputs =
      [.command ⟨0x80000000, ⟨[], [], plain1⟩⟩] ∧
    (0x80000000#32).extractLsb' 28 4 = 0x8 ∧ (0x80000000#32).extractLsb' 0 28 = 0 ∧
    ((0x88000000#32).extractLsb' 28 4 = 0x8 ∧ (0x88000000#32).extractLsb' 0 28 ≠ 0) ∧
    State.reset.regs = none ∧ (seq 17).length ≠ (readyRegs .ecb []).bsz.bytes ∧
    ((ready .ecb []).regs = some (readyRegs .ecb []) ∧ (readyRegs .ecb []).mode = .ecb ∧
      plain1.length = (readyRegs .ecb []).bsz.bytes) ∧
    (∀ m, m ≠ .ecb → (ready m (seq 16)).regs = some (readyRegs m (seq 16)) ∧
      (readyRegs m (seq 16)).mode = m ∧ (readyRegs m (seq 16)).iv = some (seq 16) ∧
      plain1.length = (readyRegs m (seq 16)).bsz.bytes) :=
  ⟨rfl, by decide, by decide, by decide, rfl, by decide, ⟨rfl, rfl, by decide⟩,
    fun m hm => ⟨rfl, rfl, by simp [readyRegs, hm], rfl⟩⟩

theorem witness_BlockCommandsComplete :
    (readyFor .cbc (seq 16) plain1).Inv ∧
    (readyFor .cbc (seq 16) plain1).regs = some (readyRegs .cbc (seq 16)) ∧
    (readyFor .cbc (seq 16) plain1).operands.data.length =
      (readyRegs .cbc (seq 16)).bsz.bytes ∧
    (readyFor .ecb [] plain1).Inv ∧ (readyRegs .ecb []).mode = .ecb :=
  ⟨readyFor_inv (.inr rfl), rfl, by decide, readyFor_inv (.inl rfl), rfl⟩

/-- Two blocks presented to a core in CBC mode, and the same in ECB mode; the IV restored by LOAD_IV. -/
theorem witness_StreamRoundTrip :
    ({ ready .cbc (seq 16) with
        inputs := [plain1, seq 16].map fun p => .command (encryptCommand p) } : State).Inv ∧
    (ready .cbc (seq 16)).regs = some (readyRegs .cbc (seq 16)) ∧
    (∀ p ∈ [plain1, seq 16], p.length = (readyRegs .cbc (seq 16)).bsz.bytes) ∧
    (readyRegs .cbc (seq 16)).iv = some (seq 16) ∧
    Function.Bijective (lookup (readyRegs .cbc (seq 16)).sbox) ∧
    (readyRegs .ecb []).mode = .ecb ∧ (ready .ecb []).Inv ∧
    loadIvCommand (seq 16) = loadIvCommand (seq 16) :=
  ⟨ready_inv (.inr rfl), rfl, by decide, rfl, sbox_1b_bijective, rfl, ready_inv (.inl rfl), rfl⟩

/-- Two blocks presented to a core in CFB or OFB mode with 24-byte blocks under 0x05, whose S-box is no
bijection; the IV restored by the CONFIG in force. -/
theorem witness_StreamRoundTrip_configAgain (m : Mode) (hm : m = .cfb ∨ m = .ofb) :
    ({ State.reset with
        regs := some (configured .b24 .b16 0x05 m (seq 16) (seq 24))
        inputs := [seq 24, seq 24].map fun p => .command (encryptCommand p) } : State).Inv ∧
    (∀ p ∈ [seq 24, seq 24],
      p.length = (configured .b24 .b16 0x05 m (seq 16) (seq 24)).bsz.bytes) ∧
    (configured .b24 .b16 0x05 m (seq 16) (seq 24)).iv = some (seq 24) ∧
    ¬ ((configured .b24 .b16 0x05 m (seq 16) (seq 24)).mode = .ecb ∨
      (configured .b24 .b16 0x05 m (seq 16) (seq 24)).mode = .cbc) ∧
    ¬ Function.Bijective (lookup (configured .b24 .b16 0x05 m (seq 16) (seq 24)).sbox) ∧
    configAgain (configured .b24 .b16 0x05 m (seq 16) (seq 24)) (seq 24) =
      ⟨encode (.config 24 16 0x05 m.code.toNat), ⟨seq 16, seq 24, []⟩⟩ := by
  refine ⟨fun r hr => ?_, fun p hp => ?_, ?_, ?_, sbox_05_not_bijective, rfl⟩
  · obtain rfl := Option.some.inj hr
    exact configured_inv (by decide) (by decide) (.inr (by decide))
  · simp only [List.mem_cons, List.not_mem_nil, or_false, or_self] at hp
    subst hp
    rfl
  · rcases hm with rfl | rfl <;> rfl
  · rcases hm with rfl | rfl <;> decide

theorem witness_SingleBlockEquivalences :
    plain1 = (readyFor .ecb [] plain1).operands.data ∧
    plain1.length = (readyRegs .ecb []).bsz.bytes ∧
    (seq 16).length = (readyRegs .ecb []).bsz.bytes := by decide

/-- In each mode, two ENCRYPT commands with the same block that both answer OK. -/
theorem witness_RepeatedBlockCiphertexts (m : Mode) :
    (readyFor m (seq 16) plain1).Inv ∧
    (readyFor m (seq 16) plain1).regs = some (readyRegs m (seq 16)) ∧
    Function.Bijective (lookup (readyRegs m (seq 16)).sbox) ∧
    ((readyRegs m (seq 16)).mode = .ecb ∨ (readyRegs m (seq 16)).iv = some (seq 16)) ∧
    ∃ t u x y, exec .encrypt (readyFor m (seq 16) plain1) = .next t ∧
      t.responses = [] ++ [⟨.ok, x⟩] ∧
      exec .encrypt { t with operands := (readyFor m (seq 16) plain1).operands } = .next u ∧
      u.responses = t.responses ++ [⟨.ok, y⟩] := by
  refine ⟨readyFor_inv (.inr rfl), rfl, sbox_1b_bijective, ?_, ?_⟩
  · cases m <;> first | exact .inl rfl | exact .inr rfl
  · cases m <;> exact ⟨_, _, _, _, rfl, rfl, rfl, rfl⟩

/-- In every mode but ECB, a chained command of either direction that answers OK. -/
theorem witness_HostCanComputeTheIv (m : Mode) (i : Instr) (hi : i = .encrypt ∨ i = .decrypt) :
    (readyFor m (seq 16) plain1).Inv ∧
    (readyFor m (seq 16) plain1).regs = some (readyRegs m (seq 16)) ∧
    (readyRegs m (seq 16)).mode = m ∧
    ∃ t q x, exec i (readyFor m (seq 16) plain1) = .next t ∧ t.regs = some q ∧
      t.responses = [] ++ [⟨.ok, x⟩] := by
  refine ⟨readyFor_inv (.inr rfl), rfl, rfl, ?_⟩
  rcases hi with rfl | rfl <;> cases m <;> exact ⟨_, _, _, rfl, rfl, rfl⟩

/-! ### Whole-machine rules -/

theorem witness_InverseTableUnreadOutsideEcbCbcDecrypt :
    (readyFor .cfb (seq 16) plain1).regs = some (readyRegs .cfb (seq 16)) ∧
    (readyRegs .cfb (seq 16)).mode = .cfb ∧
    (∃ t, exec .encrypt (readyFor .cfb (seq 16) plain1) = .next t) ∧
    ∃ t, exec .decrypt (readyFor .cfb (seq 16) plain1) = .next t :=
  ⟨rfl, rfl, ⟨_, rfl⟩, _, rfl⟩

theorem witness_SecretsStayOutOfOtherResponses :
    SamePublic (readyRegs .cbc (seq 16)) (configured .b16 .b16 0x1b .cbc (seq 16) plain1) ∧
    ∃ t t' x x',
      exec .encrypt (readyFor .cbc (seq 16) plain1) = .next t ∧
      exec .encrypt { readyFor .cbc (seq 16) plain1 with
        regs := some (configured .b16 .b16 0x1b .cbc (seq 16) plain1) } = .next t' ∧
      t.responses = [] ++ [x] ∧ t'.responses = [] ++ [x'] :=
  ⟨⟨rfl, rfl, rfl, rfl, rfl⟩, _, _, _, _, rfl, rfl, rfl, rfl⟩

theorem witness_CommandFrame :
    (∃ t, exec (.gfMul 0x1b 0x57 0x83) (ready .cbc (seq 16)) = .next t) ∧
    (∃ t, exec .loadKey { ready .cbc (seq 16) with operands := ⟨keyB, [], []⟩ } = .next t) ∧
    (∃ t, exec .loadIv { ready .ecb [] with operands := ⟨[], seq 16, []⟩ } = .next t) ∧
    (∃ t, exec .encrypt (readyFor .ecb [] plain1) = .next t) ∧
    (∃ t, exec .loadKey State.reset = .next t) ∧ State.reset.regs = none ∧
    (ready .cbc (seq 16)).regs = some (readyRegs .cbc (seq 16)) :=
  ⟨⟨_, rfl⟩, ⟨_, rfl⟩, ⟨_, rfl⟩, ⟨_, rfl⟩, ⟨_, rfl⟩, rfl, rfl⟩

end Sys2Proof.Tests
end

/-! ## Proofs of the statements of 10_state.md

### One equation per command

What `exec` answers, stated once for each class of command; the proofs below cite these equations. -/

namespace Sys2Proof.Machine

open Claims

/-- The three GF commands, each with the polynomial it checks and the byte it answers
(40_gf_arith.md R68 to R70). -/
inductive GfCommand : Instr → Byte → Byte → Prop where
  | gfAdd (p a b : Byte) : GfCommand (.gfAdd p a b) p (gfAdd a b)
  | gfMul (p a b : Byte) : GfCommand (.gfMul p a b) p (gfMul a b p)
  | gfInv (p a : Byte) : GfCommand (.gfInv p a) p (gfInv a p)

/-- ENCRYPT and DECRYPT, each with its case on CFG_MODE (43_modes.md R110, R111). -/
inductive BlockCommand : Instr → (CipherRegs → ByteVec → Option BlockOutcome) → Prop where
  | encrypt : BlockCommand .encrypt encryptBlock
  | decrypt : BlockCommand .decrypt decryptBlock

/-- Every instruction is a GF command, one of the three configuration commands, or a block command. -/
theorem instr_classes (i : Instr) :
    (∃ p v, GfCommand i p v) ∨ (∃ bsz ksz p m, i = .config bsz ksz p m) ∨ i = .loadKey ∨
      i = .loadIv ∨ ∃ rule, BlockCommand i rule := by
  cases i with
  | gfAdd p a b => exact .inl ⟨_, _, .gfAdd p a b⟩
  | gfMul p a b => exact .inl ⟨_, _, .gfMul p a b⟩
  | gfInv p a => exact .inl ⟨_, _, .gfInv p a⟩
  | config bsz ksz p m => exact .inr (.inl ⟨bsz, ksz, p, m, rfl⟩)
  | loadKey => simp
  | loadIv => simp
  | encrypt => exact .inr (.inr (.inr (.inr ⟨_, .encrypt⟩)))
  | decrypt => exact .inr (.inr (.inr (.inr ⟨_, .decrypt⟩)))

theorem blockCommand_of_encrypt_or_decrypt {i : Instr} (h : i = .encrypt ∨ i = .decrypt) :
    ∃ rule, BlockCommand i rule := by
  rcases h with rfl | rfl
  · exact ⟨_, .encrypt⟩
  · exact ⟨_, .decrypt⟩

section
variable {i : Instr} {s t : State} {r : CipherRegs} {p v : Byte}
  {rule : CipherRegs → ByteVec → Option BlockOutcome}

theorem exec_gf (hi : GfCommand i p v) : exec i s = .next (gfRespond p v s) := by
  cases hi <;> rfl

/-- A GF command writes no register (40_gf_arith.md R68 to R70). -/
theorem exec_gf_regs (hi : GfCommand i p v) (hx : exec i s = .next t) : t.regs = s.regs := by
  obtain rfl := Host.Outcome.next.inj ((exec_gf hi).symm.trans hx)
  rcases gfRespond_cases p v s with ⟨-, e⟩ | ⟨-, e⟩ <;> simp [e]

theorem exec_config_of_error {bsz ksz m : Nat} {e : Status}
    (h : checkConfig bsz ksz p m s.operands = .error e) :
    exec (.config bsz ksz p m) s = .next (s.raise e) := by
  simp [exec, execConfig, h]

theorem exec_config_of_ok {bsz ksz n : Nat} {b k : Size} {m : Mode}
    (h : checkConfig bsz ksz p n s.operands = .ok (b, k, m)) :
    exec (.config bsz ksz p n) s = .next ((s.commit
      (configured b k p m s.operands.keyData s.operands.ivData)).respond .ok []) := by
  simp [exec, execConfig, h]

theorem exec_loadKey_of_regs (h : s.regs = some r) :
    exec .loadKey s = .next (if s.operands.keyData.length = r.ksz.bytes then
      (s.commit (r.withKey s.operands.keyData)).respond .ok [] else s.raise .errKey) := by
  by_cases hk : s.operands.keyData.length = r.ksz.bytes <;>
    simp [exec, execLoadKey, checkLoadKey, checkConfigured, h, hk]

theorem exec_loadIv_of_regs (h : s.regs = some r) :
    exec .loadIv s = .next (if r.mode = .ecb then s.respond .ok []
      else if s.operands.ivData.length = r.bsz.bytes then
        (s.commit { r with iv := some s.operands.ivData }).respond .ok []
      else s.raise .errIv) := by
  by_cases hm : r.mode = .ecb
  · simp [exec, execLoadIv, checkLoadIv, checkConfigured, h, hm]
  · by_cases hv : s.operands.ivData.length = r.bsz.bytes <;>
      simp [exec, execLoadIv, checkLoadIv, checkConfigured, h, hm, hv]

theorem exec_block_of_length (hi : BlockCommand i rule) (h : s.regs = some r)
    (hd : s.operands.data.length = r.bsz.bytes) :
    exec i s = finishBlock s r (rule r s.operands.data) := by
  have hc : checkBlock s = .ok r := checkBlock_ok_iff.mpr ⟨h, hd⟩
  cases hi <;> simp [exec, execEncrypt, execDecrypt, hc]

theorem exec_block_of_length_ne (hi : BlockCommand i rule) (h : s.regs = some r)
    (hd : s.operands.data.length ≠ r.bsz.bytes) : exec i s = .next (s.raise .errBlock) := by
  have hc : checkBlock s = .error .errBlock := by simp [checkBlock, checkConfigured, h, hd]
  cases hi <;> simp [exec, execEncrypt, execDecrypt, hc]

/-- An unconfigured core answers ERR_NOT_CONFIGURED to the four commands that need a configuration
(10_state.md R10). -/
theorem exec_of_unconfigured (h : s.regs = none)
    (hi : i ∈ [.loadKey, .loadIv, .encrypt, .decrypt]) :
    exec i s = .next (s.raise .errNotConfigured) := by
  simp only [List.mem_cons, List.not_mem_nil, or_false] at hi
  rcases hi with rfl | rfl | rfl | rfl
  · simp [exec, execLoadKey, checkLoadKey, checkConfigured, h]
  · simp [exec, execLoadIv, checkLoadIv, checkConfigured, h]
  · simp [exec, execEncrypt, checkBlock, checkConfigured, h]
  · simp [exec, execDecrypt, checkBlock, checkConfigured, h]

theorem BlockCommand.encrypt_or_decrypt (hi : BlockCommand i rule) :
    i = .encrypt ∨ i = .decrypt := by
  cases hi <;> simp

theorem BlockCommand.mem_needs_config (hi : BlockCommand i rule) :
    i ∈ [.loadKey, .loadIv, .encrypt, .decrypt] := by
  cases hi <;> simp

/-- A block command that ends on a configured core has either raised ERR_BLOCK or written a mode rule's
outcome. -/
theorem exec_block_cases (hi : BlockCommand i rule) (h : s.regs = some r)
    (hx : exec i s = .next t) :
    (s.operands.data.length ≠ r.bsz.bytes ∧ t = s.raise .errBlock) ∨
      ∃ out, s.operands.data.length = r.bsz.bytes ∧ rule r s.operands.data = some out ∧
        t = (s.commit (r.afterBlock out)).respond .ok out.result := by
  by_cases hd : s.operands.data.length = r.bsz.bytes
  · rw [exec_block_of_length hi h hd] at hx
    obtain ⟨out, ho, rfl⟩ := finishBlock_next_iff.mp hx
    exact .inr ⟨out, hd, ho, rfl⟩
  · rw [exec_block_of_length_ne hi h hd] at hx
    exact .inl ⟨hd, (Host.Outcome.next.inj hx).symm⟩

/-- The commands that need a configuration leave an unconfigured core unconfigured. -/
theorem regs_none_of_exec (h : s.regs = none) (hx : exec i s = .next t)
    (hi : i ∈ [.loadKey, .loadIv, .encrypt, .decrypt]) : t.regs = none := by
  rw [exec_of_unconfigured h hi] at hx
  obtain rfl := Host.Outcome.next.inj hx
  simp [h]

end

/-- An error's next state is the one the claims write as `answered`. -/
theorem raise_eq_answered (s : State) (e : Status) :
    s.raise e = answered s s.inputs s.regs e [] := rfl

/-! ### The key schedule (41_rijndael.md R79 to R82) -/

/-- NR of 10_state.md R15, for all nine pairs of sizes. -/
theorem roundsOf_roundCount (b k : Size) : RoundsOf b.bytes k.bytes (roundCount b k) := by
  unfold RoundsOf
  cases b <;> cases k <;> decide

theorem byteAt_xorVec {s t : ByteVec} {j : Nat} (hs : j < s.length) (ht : j < t.length) :
    byteAt (xorVec s t) j = byteAt s j ^^^ byteAt t j := by
  rw [byteAt_eq_getElem hs, byteAt_eq_getElem ht, byteAt_eq_getElem (by simp [hs, ht])]
  simp [xorVec]

/-- Byte `4c + r` of columns laid end to end is byte `r` of column `c` (20_memory.md R34). -/
theorem byteAt_flatten {cols : List ByteVec} (hc : ∀ col ∈ cols, col.length = 4) {c r : Nat}
    (hr : r < 4) : byteAt cols.flatten (4 * c + r) = byteAt (cols.getD c []) r := by
  induction cols generalizing c with
  | nil => simp
  | cons col cols ih =>
    have h4 : col.length = 4 := hc col (by simp)
    cases c with
    | zero => simp [byteAt, List.getElem?_append_left (h4 ▸ hr)]
    | succ c =>
      have := ih (fun x hx => hc x (by simp [hx])) (c := c)
      simpa [byteAt, List.getElem?_append_right, h4, show 4 * (c + 1) + r - 4 = 4 * c + r by omega,
        show 4 ≤ 4 * (c + 1) + r by omega] using this

theorem length_of_mem_columns {v col : ByteVec} (h : col ∈ columns v) : col.length = 4 := by
  induction v using columns.induct with
  | case1 a b c d rest ih =>
    rcases List.mem_cons.mp (by simpa [columns] using h) with rfl | h
    · rfl
    · exact ih h
  | case2 v hv => simp [columns] at h

/-- A vector that `columns` does not split has fewer than four bytes. -/
theorem length_lt_four {v : ByteVec}
    (h : ∀ a b c d rest, v = a :: b :: c :: d :: rest → False) : v.length < 4 := by
  rcases v with _ | ⟨a, _ | ⟨b, _ | ⟨c, _ | ⟨d, rest⟩⟩⟩⟩
  case cons.cons.cons.cons => exact (h a b c d rest rfl).elim
  all_goals simp

@[simp] theorem columns_length (v : ByteVec) : (columns v).length = v.length / 4 := by
  induction v using columns.induct with
  | case1 a b c d rest ih => simp [columns, ih]; omega
  | case2 v hv => simp [columns, Nat.div_eq_of_lt (length_lt_four hv)]

theorem columns_flatten {v : ByteVec} (h : v.length % 4 = 0) : (columns v).flatten = v := by
  induction v using columns.induct with
  | case1 a b c d rest ih => simpa [columns] using ih (by simp at h; omega)
  | case2 v hv =>
    have := length_lt_four hv
    have : v = [] := List.length_eq_zero_iff.mp (by omega)
    subst this
    rfl

@[simp] theorem chainColumns_length (left : ByteVec) (cols : List ByteVec) :
    (chainColumns left cols).length = cols.length := by
  induction cols generalizing left with
  | nil => rfl
  | cons col cols ih => simp [chainColumns, ih]

/-- Each column of the new round key is the old column exclusive-or the new column before it
(41_rijndael.md R81, R82). -/
theorem chainColumns_getD {left : ByteVec} {cols : List ByteVec} {c : Nat} (hc : c < cols.length) :
    (chainColumns left cols).getD c [] =
      xorVec (cols.getD c []) ((left :: chainColumns left cols).getD c []) := by
  induction cols generalizing left c with
  | nil => simp at hc
  | cons col cols ih =>
    cases c with
    | zero => rfl
    | succ c => simpa [chainColumns] using ih (left := xorVec col left) (by simpa using hc)

theorem length_of_mem_chainColumns {left col : ByteVec} {cols : List ByteVec}
    (hl : left.length = 4) (hc : ∀ x ∈ cols, x.length = 4) (h : col ∈ chainColumns left cols) :
    col.length = 4 := by
  induction cols generalizing left with
  | nil => simp [chainColumns] at h
  | cons x cols ih =>
    have hx : (xorVec x left).length = 4 := by simp [hc x (by simp), hl]
    rcases List.mem_cons.mp h with rfl | h
    · exact hx
    · exact ih hx (fun y hy => hc y (by simp [hy])) h

section
variable {sbox prev : ByteVec} {b : Size} {i : Nat}

theorem length_of_mem_nextColumns {col : ByteVec}
    (h : col ∈ chainColumns (keyWord sbox b i prev) (columns prev)) : col.length = 4 :=
  length_of_mem_chainColumns rfl (fun _ => length_of_mem_columns) h

theorem nextRoundKey_length (h : prev.length = b.bytes) :
    (nextRoundKey sbox b i prev).length = b.bytes := by
  have hsum := List.sum_eq_card_nsmul
    ((chainColumns (keyWord sbox b i prev) (columns prev)).map List.length) 4
    (by simpa using fun _ => length_of_mem_nextColumns)
  have hb := b.bytes_eq_four_mul_columns
  simp only [List.length_map, chainColumns_length, columns_length, h, smul_eq_mul] at hsum
  rw [nextRoundKey, List.length_flatten, hsum]
  omega

/-- Column `c` of the next round key, byte by byte: the same column of the previous round key
exclusive-or the column before it, which for the first column is the key-schedule word. -/
theorem byteAt_nextRoundKey (h : prev.length = b.bytes) {c r : Nat} (hc : c < b.columns)
    (hr : r < 4) :
    byteAt (nextRoundKey sbox b i prev) (4 * c + r) = byteAt prev (4 * c + r) ^^^
      byteAt ((keyWord sbox b i prev ::
        chainColumns (keyWord sbox b i prev) (columns prev)).getD c []) r := by
  have hb := b.bytes_eq_four_mul_columns
  have hlen : c < (columns prev).length := by simp [h]; omega
  have hcol : ((columns prev).getD c []).length = 4 := by
    rw [List.getD_eq_getElem _ _ hlen]
    exact length_of_mem_columns (List.getElem_mem _)
  have hleft : ((keyWord sbox b i prev ::
      chainColumns (keyWord sbox b i prev) (columns prev)).getD c []).length = 4 := by
    rw [List.getD_eq_getElem _ _ (by simp; omega)]
    rcases List.mem_cons.mp (List.getElem_mem _) with e | hm
    · rw [e]; rfl
    · exact length_of_mem_nextColumns hm
  calc byteAt (nextRoundKey sbox b i prev) (4 * c + r)
      = byteAt ((chainColumns (keyWord sbox b i prev) (columns prev)).getD c []) r :=
        byteAt_flatten (fun _ => length_of_mem_nextColumns) hr
    _ = byteAt ((columns prev).getD c []) r ^^^ _ := by
        rw [chainColumns_getD hlen, byteAt_xorVec (hcol ▸ hr) (hleft ▸ hr)]
    _ = byteAt prev (4 * c + r) ^^^ _ := by
        rw [← byteAt_flatten (fun _ => length_of_mem_columns) hr, columns_flatten (by omega)]

/-- The first column takes the key-schedule word (41_rijndael.md R81). -/
theorem byteAt_nextRoundKey_first (h : prev.length = b.bytes) {r : Nat} (hr : r < 4) :
    byteAt (nextRoundKey sbox b i prev) r = byteAt prev r ^^^ byteAt (keyWord sbox b i prev) r := by
  simpa using byteAt_nextRoundKey (sbox := sbox) (i := i) h (c := 0) (by cases b <;> decide) hr

/-- Every other column takes the column before it (41_rijndael.md R82). -/
theorem byteAt_nextRoundKey_later (h : prev.length = b.bytes) {c r : Nat} (hc1 : 1 ≤ c)
    (hc : c < b.columns) (hr : r < 4) :
    byteAt (nextRoundKey sbox b i prev) (4 * c + r) = byteAt prev (4 * c + r) ^^^
      byteAt (nextRoundKey sbox b i prev) (4 * (c - 1) + r) := by
  obtain ⟨c, rfl⟩ := Nat.exists_eq_add_of_le' hc1
  rw [byteAt_nextRoundKey h hc hr, List.getD_cons_succ, Nat.add_sub_cancel]
  congr 1
  exact (byteAt_flatten (fun _ => length_of_mem_nextColumns) hr).symm

theorem roundKeysFrom_length (n : Nat) : (roundKeysFrom sbox b n i prev).length = n + 1 := by
  induction n generalizing i prev with
  | zero => rfl
  | succ n ih => simp [roundKeysFrom, ih]

theorem roundKeysFrom_getD_zero (n : Nat) : (roundKeysFrom sbox b n i prev).getD 0 [] = prev := by
  cases n <;> rfl

/-- Each round key is the next one after the round key before it (41_rijndael.md R80 to R82). -/
theorem roundKeysFrom_getD_succ {n j : Nat} (hj : j < n) :
    (roundKeysFrom sbox b n i prev).getD (j + 1) [] =
      nextRoundKey sbox b (i + j) ((roundKeysFrom sbox b n i prev).getD j []) := by
  induction n generalizing i prev j with
  | zero => omega
  | succ n ih =>
    cases j with
    | zero => simpa [roundKeysFrom] using roundKeysFrom_getD_zero n
    | succ j =>
      simpa [roundKeysFrom, Nat.add_right_comm, Nat.add_assoc] using
        ih (i := i + 1) (j := j) (by omega)

theorem length_of_mem_roundKeysFrom {n : Nat} (h : prev.length = b.bytes) {rk : ByteVec}
    (hm : rk ∈ roundKeysFrom sbox b n i prev) : rk.length = b.bytes := by
  induction n generalizing i prev with
  | zero => simp_all [roundKeysFrom]
  | succ n ih =>
    rcases List.mem_cons.mp hm with rfl | hm
    · exact h
    · exact ih (nextRoundKey_length h) hm

end

section
variable (sbox : ByteVec) (b k : Size) (key : ByteVec)

theorem keyExpand_length : (keyExpand sbox b k key).length = roundCount b k + 1 :=
  roundKeysFrom_length _

theorem length_of_mem_keyExpand : ∀ rk ∈ keyExpand sbox b k key, rk.length = b.bytes :=
  fun _ => length_of_mem_roundKeysFrom (tileKey_length b key)

theorem keyExpand_getD_zero : (keyExpand sbox b k key).getD 0 [] = tileKey b key :=
  roundKeysFrom_getD_zero _

theorem keyExpand_getD_succ {j : Nat} (hj : j < roundCount b k) :
    (keyExpand sbox b k key).getD (j + 1) [] =
      nextRoundKey sbox b (j + 1) ((keyExpand sbox b k key).getD j []) := by
  rw [Nat.add_comm j 1]
  rw [keyExpand, Nat.add_comm 1 j, roundKeysFrom_getD_succ hj, Nat.add_comm 1 j]

theorem keyExpand_getD_length {j : Nat} (hj : j ≤ roundCount b k) :
    ((keyExpand sbox b k key).getD j []).length = b.bytes := by
  rw [List.getD_eq_getElem _ _ (by rw [keyExpand_length]; omega)]
  exact length_of_mem_keyExpand sbox b k key _ (List.getElem_mem _)

end

/-- Settles O25: the equations of one round key step, at every index of the schedule. -/
theorem keyScheduleFollowsItsEquations : Obligations.KeyScheduleFollowsItsEquations := by
  refine ⟨roundsOf_roundCount, fun sbox b k key hkey => ⟨keyExpand_length sbox b k key,
    length_of_mem_keyExpand sbox b k key, fun j hj => ?_, ?_⟩⟩
  · rw [keyExpand_getD_zero, tileKey, byteAt_map_range _ hj, hkey]
  · rintro i h1 hi prev now hprev hnow
    obtain ⟨i, rfl⟩ := Nat.exists_eq_add_of_le' h1
    have hlen : prev.length = b.bytes := hprev ▸ keyExpand_getD_length sbox b k key (by omega)
    have hnext : now = nextRoundKey sbox b (i + 1) prev := by
      rw [hnow, keyExpand_getD_succ sbox b k key (by omega), hprev, Nat.add_sub_cancel]
    rw [hnext]
    exact ⟨byteAt_nextRoundKey_first hlen (by omega), byteAt_nextRoundKey_first hlen (by omega),
      byteAt_nextRoundKey_first hlen (by omega), byteAt_nextRoundKey_first hlen (by omega),
      fun c r hc1 hc hr => byteAt_nextRoundKey_later hlen hc1 hc hr⟩

/-! ### The invariant of 10_state.md R24 -/

/-- What a mode rule leaves fits the configuration `r`: CFG_BSZ bytes everywhere, and a new IV exactly
outside ECB mode. -/
structure BlockOutcome.Fits (o : BlockOutcome) (r : CipherRegs) : Prop where
  resultLength : o.result.length = r.bsz.bytes
  newIvPresent : o.newIv.isSome = decide (r.mode ≠ .ecb)
  newIvLength : ∀ iv, o.newIv = some iv → iv.length = r.bsz.bytes
  workingLength : o.working.length = r.bsz.bytes

section
variable {s t : State} {r : CipherRegs} {data : ByteVec} {o : BlockOutcome} {i : Instr}
  {rule : CipherRegs → ByteVec → Option BlockOutcome}

theorem encryptBlock_fits (hr : r.Inv) (hd : data.length = r.bsz.bytes)
    (ho : encryptBlock r data = some o) : o.Fits r := by
  unfold encryptBlock at ho
  cases hm : r.mode <;> simp only [hm] at ho
  case ecb =>
    obtain rfl := Option.some.inj ho
    constructor <;> simp [ecbEncrypt, hm]
  all_goals
    obtain ⟨iv, hiv, rfl⟩ := Option.map_eq_some_iff.mp ho
    have hl := hr.ivLength iv hiv
    constructor <;> simp [cbcEncrypt, cfbEncrypt, ofbEncrypt, hm, hd]

theorem decryptBlock_fits (hr : r.Inv) (hd : data.length = r.bsz.bytes)
    (ho : decryptBlock r data = some o) : o.Fits r := by
  unfold decryptBlock at ho
  cases hm : r.mode <;> simp only [hm] at ho
  case ecb =>
    obtain rfl := Option.some.inj ho
    constructor <;> simp [ecbDecrypt, hm]
  all_goals
    obtain ⟨iv, hiv, rfl⟩ := Option.map_eq_some_iff.mp ho
    have hl := hr.ivLength iv hiv
    constructor <;> simp [cbcDecrypt, cfbDecrypt, ofbDecrypt, hm, hd, hl]

theorem BlockCommand.fits (hi : BlockCommand i rule) (hr : r.Inv) (hd : data.length = r.bsz.bytes)
    (ho : rule r data = some o) : o.Fits r := by
  cases hi with
  | encrypt => exact encryptBlock_fits hr hd ho
  | decrypt => exact decryptBlock_fits hr hd ho

theorem afterBlock_inv (hr : r.Inv) (ho : o.Fits r) : (r.afterBlock o).Inv where
  polyValid := hr.polyValid
  keyLength := hr.keyLength
  sboxEq := hr.sboxEq
  invSboxEq := hr.invSboxEq
  rkEq := hr.rkEq
  ivPresent := by
    have h := ho.newIvPresent
    have h' := hr.ivPresent
    cases hn : o.newIv <;> simp_all
  ivLength := by
    intro iv h
    cases hn : o.newIv with
    | none => exact hr.ivLength iv (by simpa [hn] using h)
    | some v => exact ho.newIvLength iv (by simpa [hn] using h)
  workingLength := by
    intro w h
    obtain rfl := Option.some.inj h
    exact ho.workingLength

theorem withKey_inv {key : ByteVec} (hr : r.Inv) (hk : key.length = r.ksz.bytes) :
    (r.withKey key).Inv :=
  { hr with keyLength := hk, rkEq := rfl }

theorem withIv_inv {iv : ByteVec} (hr : r.Inv) (hm : r.mode ≠ .ecb) (hv : iv.length = r.bsz.bytes) :
    CipherRegs.Inv { r with iv := some iv } :=
  { hr with
    ivPresent := by simp [hm]
    ivLength := fun v h => by obtain rfl := Option.some.inj h; exact hv }

theorem inv_of_regs_eq (h : s.Inv) (he : t.regs = s.regs) : t.Inv := by
  intro q hq
  exact h q (he ▸ hq)

theorem inv_of_regs_some (hr : r.Inv) (he : t.regs = some r) : t.Inv := by
  intro q hq
  obtain rfl := Option.some.inj (he.symm.trans hq)
  exact hr

theorem inv_of_regs_none (he : t.regs = none) : t.Inv := by
  intro q hq
  simp [he] at hq

theorem exec_config_inv {bsz ksz n : Nat} {p : Byte} (h : s.Inv)
    (hx : exec (.config bsz ksz p n) s = .next t) : t.Inv := by
  cases hc : checkConfig bsz ksz p n s.operands with
  | error e =>
    obtain rfl := Host.Outcome.next.inj ((exec_config_of_error hc).symm.trans hx)
    exact inv_of_regs_eq h rfl
  | ok bkm =>
    obtain ⟨b, k, m⟩ := bkm
    obtain rfl := Host.Outcome.next.inj ((exec_config_of_ok hc).symm.trans hx)
    obtain ⟨-, -, hk, hp, -, hi⟩ := checkConfig_ok_iff.mp hc
    exact inv_of_regs_some (configured_inv hp hk hi) rfl

theorem exec_loadKey_inv (h : s.Inv) (hs : s.regs = some r) (hx : exec .loadKey s = .next t) :
    t.Inv := by
  rw [exec_loadKey_of_regs hs] at hx
  obtain rfl := Host.Outcome.next.inj hx
  split
  · exact inv_of_regs_some (withKey_inv (h r hs) ‹_›) rfl
  · exact inv_of_regs_eq h rfl

theorem exec_loadIv_inv (h : s.Inv) (hs : s.regs = some r) (hx : exec .loadIv s = .next t) :
    t.Inv := by
  rw [exec_loadIv_of_regs hs] at hx
  obtain rfl := Host.Outcome.next.inj hx
  split
  · exact inv_of_regs_eq h rfl
  · split
    · exact inv_of_regs_some (withIv_inv (h r hs) ‹_› ‹_›) rfl
    · exact inv_of_regs_eq h rfl

theorem exec_block_inv (hi : BlockCommand i rule) (h : s.Inv) (hs : s.regs = some r)
    (hx : exec i s = .next t) : t.Inv := by
  rcases exec_block_cases hi hs hx with ⟨-, rfl⟩ | ⟨out, hd, ho, rfl⟩
  · exact inv_of_regs_eq h rfl
  · exact inv_of_regs_some (afterBlock_inv (h r hs) (hi.fits (h r hs) hd ho)) rfl

/-- Every command keeps the invariant. -/
theorem exec_inv (h : s.Inv) (hx : exec i s = .next t) : t.Inv := by
  rcases instr_classes i with ⟨p, v, hi⟩ | ⟨bsz, ksz, p, m, rfl⟩ | hi
  · exact inv_of_regs_eq h (exec_gf_regs hi hx)
  · exact exec_config_inv h hx
  · cases hs : s.regs with
    | none =>
      refine inv_of_regs_none (regs_none_of_exec hs hx ?_)
      rcases hi with rfl | rfl | ⟨rule, hi⟩
      · simp
      · simp
      · exact hi.mem_needs_config
    | some r =>
      rcases hi with rfl | rfl | ⟨rule, hi⟩
      · exact exec_loadKey_inv h hs hx
      · exact exec_loadIv_inv h hs hx
      · exact exec_block_inv hi h hs hx

/-- Every step keeps the invariant: a command by `exec_inv`, a reset because it leaves no registers. -/
theorem step_inv (h : s.Inv) (hx : step s = .next t) : t.Inv := by
  rcases step_cases s with
    ⟨-, e⟩ | ⟨_, rest, -, -, e⟩ | ⟨c, rest, i, -, -, e⟩ | ⟨c, rest, _, -, -, e⟩ <;> rw [e] at hx
  · exact Host.Outcome.next.inj hx ▸ h
  · obtain rfl := Host.Outcome.next.inj hx
    exact inv_of_regs_none rfl
  · exact exec_inv (s := s.accept c rest) h hx
  · obtain rfl := Host.Outcome.next.inj hx
    exact inv_of_regs_eq h rfl

/-- The invariant gives every clause of 10_state.md R24. -/
theorem tablesAndLengthsHold_of_inv (h : r.Inv) : TablesAndLengthsHold r := by
  have hrk := h.rkEq
  refine ⟨?_, ?_, (polyValid_iff _).mp h.polyValid, ?_, h.keyLength, h.sboxEq, h.invSboxEq, hrk,
    roundsOf_roundCount _ _, ?_, ?_, ?_, h.ivLength⟩
  · cases r.bsz <;> decide
  · cases r.ksz <;> decide
  · cases r.mode <;> decide
  · rw [hrk, keyExpand_length, CipherRegs.nr]
  · rw [hrk]; exact length_of_mem_keyExpand _ _ _ _
  · rw [h.ivPresent]; cases r.mode <;> decide

end

/-- Settles O12: `step_inv`, and the clauses of R24 that the invariant gives. -/
theorem stepKeepsInvariant : Obligations.StepKeepsInvariant := by
  intro s t h hx
  exact ⟨step_inv h hx, fun r hr => tablesAndLengthsHold_of_inv (step_inv h hx r hr)⟩

/-- Settles O11: the reset state holds no registers. -/
theorem resetStateMeetsInvariant : Obligations.ResetStateMeetsInvariant :=
  inv_of_regs_none reset_regs

/-- Settles O8: the fields of the reset state. -/
theorem resetStateHasNoValues : Obligations.ResetStateHasNoValues :=
  ⟨rfl, rfl, reset_regs⟩

/-- Settles O37: the equation of an unconfigured core. -/
theorem unconfiguredCoreAnswersNotConfigured :
    Obligations.UnconfiguredCoreAnswersNotConfigured := by
  intro i s hs hi
  have hs : s.regs = none := by simpa [State.cfgValid] using hs
  rw [exec_of_unconfigured hs hi, raise_eq_answered]

/-! ### What each command leaves unchanged -/

section
variable {s t : State} {r : CipherRegs} {i : Instr} {data : ByteVec} {o : BlockOutcome}
  {rule : CipherRegs → ByteVec → Option BlockOutcome}

/-- In ECB mode a mode rule writes no IV. -/
theorem BlockCommand.newIv_of_ecb (hi : BlockCommand i rule) (hm : r.mode = .ecb)
    (ho : rule r data = some o) : o.newIv = none := by
  cases hi with
  | encrypt =>
    simp only [encryptBlock, hm, Option.some.injEq] at ho
    exact ho ▸ rfl
  | decrypt =>
    simp only [decryptBlock, hm, Option.some.injEq] at ho
    exact ho ▸ rfl

theorem exec_loadKey_frame (h : s.regs = some r) (hx : exec .loadKey s = .next t) :
    ∃ key rk, t.regs = some { r with key := key, rk := rk } := by
  rw [exec_loadKey_of_regs h] at hx
  obtain rfl := Host.Outcome.next.inj hx
  split
  · exact ⟨_, _, rfl⟩
  · exact ⟨r.key, r.rk, h⟩

theorem exec_loadIv_frame (h : s.regs = some r) (hx : exec .loadIv s = .next t) :
    ∃ iv, t.regs = some { r with iv := iv } ∧ (r.mode = .ecb → iv = r.iv) := by
  rw [exec_loadIv_of_regs h] at hx
  obtain rfl := Host.Outcome.next.inj hx
  split
  · exact ⟨r.iv, h, fun _ => rfl⟩
  · split
    · exact ⟨_, rfl, fun hm => absurd hm ‹_›⟩
    · exact ⟨r.iv, h, fun _ => rfl⟩

theorem exec_block_frame (hi : BlockCommand i rule) (h : s.regs = some r)
    (hx : exec i s = .next t) :
    ∃ iv w, t.regs = some { r with iv := iv, working := w } ∧ (r.mode = .ecb → iv = r.iv) := by
  rcases exec_block_cases hi h hx with ⟨-, rfl⟩ | ⟨out, -, ho, rfl⟩
  · exact ⟨r.iv, r.working, h, fun _ => rfl⟩
  · refine ⟨_, _, rfl, fun hm => ?_⟩
    simp [hi.newIv_of_ecb hm ho]

/-- No command but CONFIG configures an unconfigured core. -/
theorem regs_none_of_not_config (hi : ∀ bsz ksz p m, i ≠ .config bsz ksz p m) (h : s.regs = none)
    (hx : exec i s = .next t) : t.regs = none := by
  rcases instr_classes i with ⟨p, v, hg⟩ | ⟨bsz, ksz, p, m, rfl⟩ | rfl | rfl | ⟨rule, hb⟩
  · rw [exec_gf_regs hg hx, h]
  · exact absurd rfl (hi bsz ksz p m)
  · exact regs_none_of_exec h hx (by simp)
  · exact regs_none_of_exec h hx (by simp)
  · exact regs_none_of_exec h hx hb.mem_needs_config

end

/-- Settles O48: the frames of the classes of commands. -/
theorem commandFrame : Obligations.CommandFrame := by
  intro i s t hx
  obtain ⟨hin, -, hresp⟩ := exec_next_interface hx
  refine ⟨hin, hresp, fun hi h => regs_none_of_not_config hi h hx, ?_, fun r h => ⟨?_, ?_, ?_⟩⟩
  · rintro (⟨p, a, b, rfl⟩ | ⟨p, a, b, rfl⟩ | ⟨p, a, rfl⟩)
    · exact exec_gf_regs (.gfAdd p a b) hx
    · exact exec_gf_regs (.gfMul p a b) hx
    · exact exec_gf_regs (.gfInv p a) hx
  · rintro rfl
    exact exec_loadKey_frame h hx
  · rintro rfl
    exact exec_loadIv_frame h hx
  · intro hi
    obtain ⟨rule, hb⟩ := blockCommand_of_encrypt_or_decrypt hi
    exact exec_block_frame hb h hx

/-! ### What answers do not depend on -/

section
variable {r : CipherRegs} {i : Instr} {data table : ByteVec}
  {rule : CipherRegs → ByteVec → Option BlockOutcome}

/-- Another table in the place of INVSBOX. -/
def CipherRegs.withInvSbox (r : CipherRegs) (table : ByteVec) : CipherRegs :=
  { r with invSbox := table }

theorem blockEncrypt_withInvSbox (v : ByteVec) :
    blockEncrypt (r.withInvSbox table) v = blockEncrypt r v :=
  blockEncrypt_congr rfl rfl rfl rfl rfl v

/-- ENCRYPT in every mode, and DECRYPT in CFB and OFB, run on the encryption engine alone
(43_modes.md R110, R111). -/
theorem BlockCommand.rule_withInvSbox (hi : BlockCommand i rule)
    (hm : i = .encrypt ∨ r.mode = .cfb ∨ r.mode = .ofb) :
    rule (r.withInvSbox table) data = rule r data := by
  have hmode : (r.withInvSbox table).mode = r.mode := rfl
  have hiv : (r.withInvSbox table).iv = r.iv := rfl
  cases hi with
  | encrypt =>
    simp only [encryptBlock, hmode, hiv, ecbEncrypt, cbcEncrypt, cfbEncrypt, ofbEncrypt,
      blockEncrypt_withInvSbox]
  | decrypt =>
    rcases hm with h | h | h
    · simp at h
    · simp only [decryptBlock, hmode, hiv, h, cfbDecrypt, blockEncrypt_withInvSbox]
    · simp only [decryptBlock, hmode, hiv, h, ofbDecrypt, blockEncrypt_withInvSbox]

end

/-- Settles O46: the mode rule answers the same outcome with either table. -/
theorem inverseTableUnreadOutsideEcbCbcDecrypt :
    Obligations.InverseTableUnreadOutsideEcbCbcDecrypt := by
  intro i s t r table h hi hx
  obtain ⟨rule, hb⟩ := blockCommand_of_encrypt_or_decrypt (hi.imp id And.left)
  have hsame : rule (r.withInvSbox table) s.operands.data = rule r s.operands.data :=
    hb.rule_withInvSbox (hi.imp id And.right)
  have hregs : ({ s with regs := some (r.withInvSbox table) } : State).regs =
    some (r.withInvSbox table) := rfl
  rcases exec_block_cases hb h hx with ⟨hd, rfl⟩ | ⟨out, hd, ho, rfl⟩
  · refine (exec_block_of_length_ne hb hregs hd).trans ?_
    simp only [State.raise, State.respond, h, Option.map_some, CipherRegs.withInvSbox]
  · refine (exec_block_of_length hb hregs hd).trans ?_
    exact finishBlock_next_iff.mpr ⟨out, hsame.trans ho, rfl⟩

/-- Two answers, `t` of `s` and `t'` of `s'`, whose responses have one status and, where `secret` does
not hold, one result. -/
def SameAnswer (secret : Prop) (s t s' t' : State) : Prop :=
  ∃ st v v', t.responses = s.responses ++ [⟨st, v⟩] ∧ t'.responses = s'.responses ++ [⟨st, v'⟩] ∧
    (¬ secret → v = v')

section
variable {i : Instr} {s t s' t' : State} {r r' : CipherRegs} {secret : Prop}
  {rule : CipherRegs → ByteVec → Option BlockOutcome}

theorem sameAnswer_raise (e : Status) : SameAnswer secret s (s.raise e) s' (s'.raise e) :=
  ⟨e, [], [], rfl, rfl, fun _ => rfl⟩

theorem sameAnswer_of_responses {st : Status} {v : ByteVec}
    (h : t.responses = s.responses ++ [⟨st, v⟩]) (h' : t'.responses = s'.responses ++ [⟨st, v⟩]) :
    SameAnswer secret s t s' t' :=
  ⟨st, v, v, h, h', fun _ => rfl⟩

theorem gf_sameAnswer {p v : Byte} (hi : GfCommand i p v) (hx : exec i s = .next t)
    (hx' : exec i s' = .next t') : SameAnswer secret s t s' t' := by
  obtain rfl := Host.Outcome.next.inj ((exec_gf hi).symm.trans hx)
  obtain rfl := Host.Outcome.next.inj ((exec_gf hi).symm.trans hx')
  rcases gfRespond_cases p v s with ⟨hp, e⟩ | ⟨hp, e⟩ <;>
    rcases gfRespond_cases p v s' with ⟨hp', e'⟩ | ⟨hp', e'⟩
  · rw [e, e']; exact sameAnswer_of_responses rfl rfl
  · simp [hp] at hp'
  · simp [hp] at hp'
  · rw [e, e']; exact sameAnswer_raise _

theorem config_sameAnswer {bsz ksz n : Nat} {p : Byte} (ho : s.operands = s'.operands)
    (hx : exec (.config bsz ksz p n) s = .next t) (hx' : exec (.config bsz ksz p n) s' = .next t') :
    SameAnswer secret s t s' t' := by
  cases hc : checkConfig bsz ksz p n s.operands with
  | error e =>
    obtain rfl := Host.Outcome.next.inj ((exec_config_of_error hc).symm.trans hx)
    obtain rfl := Host.Outcome.next.inj ((exec_config_of_error (ho ▸ hc)).symm.trans hx')
    exact sameAnswer_raise e
  | ok bkm =>
    obtain ⟨b, k, m⟩ := bkm
    obtain rfl := Host.Outcome.next.inj ((exec_config_of_ok hc).symm.trans hx)
    obtain rfl := Host.Outcome.next.inj ((exec_config_of_ok (ho ▸ hc)).symm.trans hx')
    exact sameAnswer_of_responses rfl rfl

section
variable (h : s.regs = some r) (h' : s'.regs = some r') (hp : SamePublic r r')
  (ho : s.operands = s'.operands)
include h h' hp ho

theorem loadKey_sameAnswer (hx : exec .loadKey s = .next t) (hx' : exec .loadKey s' = .next t') :
    SameAnswer secret s t s' t' := by
  obtain ⟨-, hk, -, -, -⟩ := hp
  rw [exec_loadKey_of_regs h] at hx
  rw [exec_loadKey_of_regs h', ← ho, ← hk] at hx'
  obtain rfl := Host.Outcome.next.inj hx
  obtain rfl := Host.Outcome.next.inj hx'
  split
  · exact sameAnswer_of_responses rfl rfl
  · exact sameAnswer_raise _

theorem loadIv_sameAnswer (hx : exec .loadIv s = .next t) (hx' : exec .loadIv s' = .next t') :
    SameAnswer secret s t s' t' := by
  obtain ⟨hb, -, -, hm, -⟩ := hp
  rw [exec_loadIv_of_regs h] at hx
  rw [exec_loadIv_of_regs h', ← ho, ← hb, ← hm] at hx'
  obtain rfl := Host.Outcome.next.inj hx
  obtain rfl := Host.Outcome.next.inj hx'
  split
  · exact sameAnswer_of_responses rfl rfl
  · split
    · exact sameAnswer_of_responses rfl rfl
    · exact sameAnswer_raise _

/-- The status of ENCRYPT and DECRYPT depends on the block's length alone; their results are secret. -/
theorem block_sameAnswer (hi : BlockCommand i rule) (hs : secret) (hx : exec i s = .next t)
    (hx' : exec i s' = .next t') : SameAnswer secret s t s' t' := by
  obtain ⟨hb, -, -, -, -⟩ := hp
  rcases exec_block_cases hi h hx with ⟨hd, rfl⟩ | ⟨out, hd, -, rfl⟩ <;>
    rcases exec_block_cases hi h' hx' with ⟨hd', rfl⟩ | ⟨out', hd', -, rfl⟩ <;>
    rw [← ho, ← hb] at hd'
  · exact sameAnswer_raise _
  · exact absurd hd' hd
  · exact absurd hd hd'
  · exact ⟨.ok, out.result, out'.result, rfl, rfl, fun hn => absurd hs hn⟩

theorem exec_sameAnswer (hx : exec i s = .next t) (hx' : exec i s' = .next t') :
    SameAnswer (i = .encrypt ∨ i = .decrypt) s t s' t' := by
  rcases instr_classes i with ⟨p, v, hg⟩ | ⟨bsz, ksz, p, m, rfl⟩ | rfl | rfl | ⟨rule, hb⟩
  · exact gf_sameAnswer hg hx hx'
  · exact config_sameAnswer ho hx hx'
  · exact loadKey_sameAnswer h h' hp ho hx hx'
  · exact loadIv_sameAnswer h h' hp ho hx hx'
  · exact block_sameAnswer h h' hp ho hb hb.encrypt_or_decrypt hx hx'

end

end

/-- Settles O47: `exec_sameAnswer`, the response added being the one the answer gives. -/
theorem secretsStayOutOfOtherResponses : Obligations.SecretsStayOutOfOtherResponses := by
  intro i s s' t t' r r' x x' h h' hp ho hx hx' ht ht'
  obtain ⟨st, v, v', e, e', hv⟩ := exec_sameAnswer h h' hp ho hx hx'
  obtain rfl : x = ⟨st, v⟩ := by simpa using ht.symm.trans e
  obtain rfl : x' = ⟨st, v'⟩ := by simpa using ht'.symm.trans e'
  exact ⟨rfl, fun he hd => hv (by simp [he, hd])⟩

end Sys2Proof.Machine

/-! ## Proofs of the statements of 20_memory.md -/

namespace Sys2Proof.Machine

/-! ### Every command completes (60_exceptions.md R128) -/

section
variable {s t : State} {r : CipherRegs} {i : Instr} {rest : List HostEvent}
  {rule : CipherRegs → ByteVec → Option BlockOutcome}

/-- The invariant gives every chained mode the IV its rule reads (10_state.md R20). -/
theorem ecb_or_iv_isSome (hr : r.Inv) : r.mode = .ecb ∨ r.iv.isSome = true := by
  rw [hr.ivPresent]
  simpa using em _

theorem BlockCommand.rule_isSome (hi : BlockCommand i rule) (hr : r.Inv) (data : ByteVec) :
    (rule r data).isSome = true := by
  cases hi with
  | encrypt => exact encryptBlock_isSome r data (ecb_or_iv_isSome hr)
  | decrypt => exact decryptBlock_isSome r data (ecb_or_iv_isSome hr)

theorem exec_config_completes (bsz ksz n : Nat) (p : Byte) (s : State) :
    ∃ t, exec (.config bsz ksz p n) s = .next t := by
  cases hc : checkConfig bsz ksz p n s.operands with
  | error e => exact ⟨_, exec_config_of_error hc⟩
  | ok bkm => exact ⟨_, exec_config_of_ok hc⟩

theorem exec_block_completes (hi : BlockCommand i rule) (hr : r.Inv) (hs : s.regs = some r) :
    ∃ t, exec i s = .next t := by
  by_cases hd : s.operands.data.length = r.bsz.bytes
  · obtain ⟨out, ho⟩ := Option.isSome_iff_exists.mp (hi.rule_isSome hr s.operands.data)
    rw [exec_block_of_length hi hs hd]
    exact ⟨_, finishBlock_next_iff.mpr ⟨out, ho, rfl⟩⟩
  · exact ⟨_, exec_block_of_length_ne hi hs hd⟩

/-- Under the invariant every command ends in a next state. -/
theorem exec_completes (i : Instr) (h : s.Inv) : ∃ t, exec i s = .next t := by
  rcases instr_classes i with ⟨p, v, hi⟩ | ⟨bsz, ksz, p, n, rfl⟩ | hi
  · exact ⟨_, exec_gf hi⟩
  · exact exec_config_completes bsz ksz n p s
  · cases hs : s.regs with
    | none =>
      refine ⟨_, exec_of_unconfigured hs ?_⟩
      rcases hi with rfl | rfl | ⟨rule, hi⟩
      · simp
      · simp
      · exact hi.mem_needs_config
    | some r =>
      rcases hi with rfl | rfl | ⟨rule, hi⟩
      · exact ⟨_, exec_loadKey_of_regs hs⟩
      · exact ⟨_, exec_loadIv_of_regs hs⟩
      · exact exec_block_completes hi (h r hs) hs

/-! ### Steps and runs -/

/-- A step on a presented command that decodes is `exec` on the state that accepted it. -/
theorem step_of_decode {c : Command} (hs : s.inputs = .command c :: rest)
    (hd : decode c.word = .ok i) : step s = exec i (s.accept c rest) := by
  simp [step, hs, hd]

/-- Under the invariant a step takes in the event presented first, and gives one response when that event
is a command to be answered and none otherwise. -/
theorem step_takes_event {e : HostEvent} (h : s.Inv) (hs : s.inputs = e :: rest) :
    ∃ t, step s = .next t ∧ t.inputs = rest ∧
      ∃ new, t.responses = s.responses ++ new ∧ new.length = [e].countP HostEvent.isAnswered := by
  rcases step_cases s with
    ⟨hnil, -⟩ | ⟨e', rest', hs', he, hx⟩ | ⟨c, rest', i, hs', -, hx⟩ | ⟨c, rest', _, hs', -, hx⟩
  · simp [hs] at hnil
  · obtain ⟨rfl, rfl⟩ := List.cons.inj (hs.symm.trans hs')
    exact ⟨_, hx, rfl, [], by simp, by simp [he]⟩
  · obtain ⟨rfl, rfl⟩ := List.cons.inj (hs.symm.trans hs')
    obtain ⟨t, ht⟩ := exec_completes (s := s.accept c rest) i h
    obtain ⟨hin, -, x, hresp⟩ := exec_next_interface ht
    exact ⟨t, hx.trans ht, hin, [x], hresp, rfl⟩
  · obtain ⟨rfl, rfl⟩ := List.cons.inj (hs.symm.trans hs')
    exact ⟨_, hx, rfl, _, rfl, rfl⟩

theorem run_succ_of_step {n : Nat} (hx : step s = .next t) :
    Host.Core.run core (n + 1) s = Host.Core.run core n t := by
  have hc : core.step s = .next t := hx
  simp [Host.Core.run, hc]

end

/-- As many steps as events are presented take in every event and answer every command no reset
abandons. -/
theorem run_takes_events (events : List HostEvent) (s : State) (h : s.Inv)
    (hs : s.inputs = events) :
    ∃ t : State, Host.Core.run core events.length s = .next t ∧ t.Inv ∧ t.inputs = [] ∧
      ∃ new, t.responses = s.responses ++ new ∧
        new.length = events.countP HostEvent.isAnswered := by
  induction events generalizing s with
  | nil => exact ⟨s, rfl, h, hs, [], by simp, rfl⟩
  | cons e rest ih =>
    obtain ⟨u, hx, hu, new, hresp, hlen⟩ := step_takes_event h hs
    obtain ⟨t, ht, hinv, hin, new', hresp', hlen'⟩ := ih u (step_inv h hx) hu
    refine ⟨t, (run_succ_of_step hx).trans ht, hinv, hin, new ++ new', ?_, ?_⟩
    · rw [hresp', hresp, List.append_assoc]
    · rw [List.length_append, hlen, hlen', ← List.countP_append, List.singleton_append]

/-- Settles O14, by induction on the events presented. -/
theorem runAnswersEveryCommand : Obligations.RunAnswersEveryCommand := by
  intro s h
  exact run_takes_events s.inputs s h rfl

/-- Settles O6: the state that accepted the command is the one the claim writes out. -/
theorem stepRunsDecodedCommand : Obligations.StepRunsDecodedCommand := by
  intro s c rest i hs hd
  exact step_of_decode hs hd

end Sys2Proof.Machine

/-! ## Proofs of the statements of 30_encoding.md -/

namespace Sys2Proof

/-! ### Words and their fields -/

section
variable {n lo start len : Nat} {w v mask : Word} {x : BitVec n}

/-- A field written into a word is read back from its place. -/
@[simp] theorem extractLsb'_fieldAt_same (h : lo + n ≤ 32) :
    (fieldAt lo x).extractLsb' lo n = x := by
  ext j hj
  simp [fieldAt, show lo + j < 32 by omega, BitVec.getLsbD_eq_getElem hj]

/-- A field written into a word leaves 0 in every place beside it. -/
@[simp] theorem extractLsb'_fieldAt_disjoint (h : start + len ≤ lo ∨ lo + n ≤ start) :
    (fieldAt lo x).extractLsb' start len = 0 := by
  ext j hj
  have hout (hlo : lo ≤ start + j) : x.getLsbD (start + j - lo) = false :=
    BitVec.getLsbD_of_ge _ _ (by omega)
  simpa [fieldAt] using fun _ hlo _ => hout hlo

/-- Two words with the same five fields of formats G and C are equal (30_encoding.md R48, R49). -/
theorem word_ext_fields
    (hopc : w.extractLsb' 28 4 = v.extractLsb' 28 4)
    (hz : w.extractLsb' 24 4 = v.extractLsb' 24 4)
    (hpoly : w.extractLsb' 16 8 = v.extractLsb' 16 8)
    (ha : w.extractLsb' 8 8 = v.extractLsb' 8 8)
    (hb : w.extractLsb' 0 8 = v.extractLsb' 0 8) : w = v := by
  simp only [← BitVec.toNat_inj, BitVec.extractLsb'_toNat, Nat.shiftRight_eq_div_pow] at *
  omega

/-- Two words with the same two fields of format D are equal (30_encoding.md R50). -/
theorem word_ext_formatD
    (hopc : w.extractLsb' 28 4 = v.extractLsb' 28 4)
    (hz : w.extractLsb' 0 28 = v.extractLsb' 0 28) : w = v := by
  simp only [← BitVec.toNat_inj, BitVec.extractLsb'_toNat, Nat.shiftRight_eq_div_pow] at *
  omega

/-- A field the mask keeps whole is the same field of what the masked word equals. -/
theorem extractLsb'_of_and_eq (h : w &&& mask = v)
    (hm : mask.extractLsb' lo len = BitVec.allOnes len) :
    w.extractLsb' lo len = v.extractLsb' lo len := by
  rw [← h, BitVec.extractLsb'_and, hm, BitVec.and_allOnes]

end

/-! ### Opcodes -/

/-- The OPC column of the opcode map (30_encoding.md R51). -/
def Instr.opcode : Instr → BitVec 4
  | .gfAdd _ _ _ => 0x1
  | .gfMul _ _ _ => 0x2
  | .gfInv _ _ => 0x3
  | .config _ _ _ _ => 0x4
  | .loadKey => 0x5
  | .loadIv => 0x6
  | .encrypt => 0x7
  | .decrypt => 0x8

/-- An encoded instruction carries its opcode in OPC. -/
@[simp] theorem extractLsb'_opc_encode (i : Instr) : (encode i).extractLsb' 28 4 = i.opcode := by
  cases i <;> simp [encode, Instr.opcode, BitVec.extractLsb'_or]

/-- An opcode is reserved or one of the eight commands'. -/
theorem opcode_cases (opc : BitVec 4) :
    (opc = 0x0 ∨ 0x9#4 ≤ opc) ∨ opc = 0x1 ∨ opc = 0x2 ∨ opc = 0x3 ∨ opc = 0x4 ∨ opc = 0x5 ∨
      opc = 0x6 ∨ opc = 0x7 ∨ opc = 0x8 := by
  revert opc
  decide

section
variable {w : Word} {i : Instr}

theorem decode_of_opc_reserved (h : w.extractLsb' 28 4 = 0x0 ∨ 0x9#4 ≤ w.extractLsb' 28 4) :
    decode w = .error (.reservedOpcode (w.extractLsb' 28 4).toNat) := by
  have hn : (w.extractLsb' 28 4).toNat = 0 ∨ 9 ≤ (w.extractLsb' 28 4).toNat :=
    h.imp (congrArg BitVec.toNat) BitVec.le_def.mp
  unfold decode opcField
  split
  case h_9 => rfl
  all_goals omega

theorem decode_gfAdd (hopc : w.extractLsb' 28 4 = 0x1) (hz : w.extractLsb' 24 4 = 0) :
    decode w = .ok (.gfAdd (w.extractLsb' 16 8) (w.extractLsb' 8 8) (w.extractLsb' 0 8)) := by
  rw [decode_of_opc_gfAdd hopc, decodeG_ok_iff]
  exact ⟨hz, rfl⟩

theorem decode_gfMul (hopc : w.extractLsb' 28 4 = 0x2) (hz : w.extractLsb' 24 4 = 0) :
    decode w = .ok (.gfMul (w.extractLsb' 16 8) (w.extractLsb' 8 8) (w.extractLsb' 0 8)) := by
  rw [decode_of_opc_gfMul hopc, decodeG_ok_iff]
  exact ⟨hz, rfl⟩

theorem decode_gfInv (hopc : w.extractLsb' 28 4 = 0x3) (hz : w.extractLsb' 24 4 = 0)
    (hb : w.extractLsb' 0 8 = 0) :
    decode w = .ok (.gfInv (w.extractLsb' 16 8) (w.extractLsb' 8 8)) := by
  rw [decode_of_opc_gfInv hopc, bField, if_pos hb, decodeG_ok_iff]
  exact ⟨hz, rfl⟩

/-- The instructions of format D, whose words hold nothing but an opcode (30_encoding.md R50). -/
inductive FormatD : Instr → Prop where
  | loadKey : FormatD .loadKey
  | loadIv : FormatD .loadIv
  | encrypt : FormatD .encrypt
  | decrypt : FormatD .decrypt

theorem FormatD.decode_eq (hi : FormatD i) (hopc : w.extractLsb' 28 4 = i.opcode) :
    decode w = decodeD w i := by
  cases hi with
  | loadKey => exact decode_of_opc_loadKey hopc
  | loadIv => exact decode_of_opc_loadIv hopc
  | encrypt => exact decode_of_opc_encrypt hopc
  | decrypt => exact decode_of_opc_decrypt hopc

theorem FormatD.extractLsb'_encode (hi : FormatD i) : (encode i).extractLsb' 0 28 = 0 := by
  cases hi <;> rfl

theorem FormatD.wellFormed (hi : FormatD i) : i.WellFormed := by
  cases hi <;> rfl

end

/-! ### Round trips -/

section
variable {w : Word} {i j : Instr}

theorem FormatD.decode_encode (hi : FormatD i) : decode (encode i) = .ok i := by
  rw [hi.decode_eq (extractLsb'_opc_encode i), decodeD_ok_iff]
  exact ⟨hi.extractLsb'_encode, rfl⟩

/-- A legal word of format D is the encoding of what it decodes to. -/
theorem FormatD.encode_of_decode (hi : FormatD i) (hopc : w.extractLsb' 28 4 = i.opcode)
    (hd : decode w = .ok j) : j.WellFormed ∧ encode j = w := by
  rw [hi.decode_eq hopc, decodeD_ok_iff] at hd
  obtain ⟨hz, rfl⟩ := hd
  exact ⟨hi.wellFormed, word_ext_formatD ((extractLsb'_opc_encode i).trans hopc.symm)
    (hi.extractLsb'_encode.trans hz.symm)⟩

end

/-- Settles O1: OPC selects the row, and every field is read back from its place. -/
theorem decodeEncodeRoundTrip : Obligations.DecodeEncodeRoundTrip := by
  intro i hi
  have hopc := extractLsb'_opc_encode i
  cases i with
  | gfAdd p a b =>
    rw [decode_gfAdd hopc (by simp [encode, BitVec.extractLsb'_or])]
    simp [encode, BitVec.extractLsb'_or]
  | gfMul p a b =>
    rw [decode_gfMul hopc (by simp [encode, BitVec.extractLsb'_or])]
    simp [encode, BitVec.extractLsb'_or]
  | gfInv p a =>
    rw [decode_gfInv hopc (by simp [encode, BitVec.extractLsb'_or])
      (by simp [encode, BitVec.extractLsb'_or])]
    simp [encode, BitVec.extractLsb'_or]
  | config bsz ksz p m =>
    obtain ⟨hb, hk, hm⟩ := wellFormed_config_iff.mp hi
    rw [decode_of_opc_config hopc]
    simp [encode, BitVec.extractLsb'_or, bszField, kszField, polyField, modeField,
      Nat.mod_eq_of_lt hb, Nat.mod_eq_of_lt hk, Nat.mod_eq_of_lt hm]
  | loadKey => exact FormatD.loadKey.decode_encode
  | loadIv => exact FormatD.loadIv.decode_encode
  | encrypt => exact FormatD.encrypt.decode_encode
  | decrypt => exact FormatD.decrypt.decode_encode

/-- Settles O2: a legal word has the fields of the encoding of what it decodes to, and its reserved
fields are 0. -/
theorem encodeDecodeRoundTrip : Obligations.EncodeDecodeRoundTrip := by
  intro w i hd
  rcases opcode_cases (w.extractLsb' 28 4) with h | h | h | h | h | h | h | h | h
  · simp [decode_of_opc_reserved h] at hd
  · rw [decode_of_opc_gfAdd h, decodeG_ok_iff] at hd
    obtain ⟨hz, rfl⟩ := hd
    refine ⟨rfl, word_ext_fields ?_ ?_ ?_ ?_ ?_⟩ <;>
      simp [encode, BitVec.extractLsb'_or, h, hz, polyField, aField, bField]
  · rw [decode_of_opc_gfMul h, decodeG_ok_iff] at hd
    obtain ⟨hz, rfl⟩ := hd
    refine ⟨rfl, word_ext_fields ?_ ?_ ?_ ?_ ?_⟩ <;>
      simp [encode, BitVec.extractLsb'_or, h, hz, polyField, aField, bField]
  · by_cases hb : bField w = 0
    · rw [decode_of_opc_gfInv h, if_pos hb, decodeG_ok_iff] at hd
      obtain ⟨hz, rfl⟩ := hd
      rw [bField] at hb
      refine ⟨rfl, word_ext_fields ?_ ?_ ?_ ?_ ?_⟩ <;>
        simp [encode, BitVec.extractLsb'_or, h, hz, hb, polyField, aField]
    · rw [decode_of_opc_gfInv h, if_neg hb] at hd
      simp at hd
  · rw [decode_of_opc_config h, Except.ok.injEq] at hd
    obtain rfl := hd
    refine ⟨wellFormed_config_iff.mpr ⟨BitVec.isLt _, BitVec.isLt _, BitVec.isLt _⟩,
      word_ext_fields ?_ ?_ ?_ ?_ ?_⟩ <;>
      simp [encode, BitVec.extractLsb'_or, h, polyField, bszField, kszField, modeField,
        -BitVec.extractLsb'_toNat]
  · exact FormatD.loadKey.encode_of_decode h hd
  · exact FormatD.loadIv.encode_of_decode h hd
  · exact FormatD.encrypt.encode_of_decode h hd
  · exact FormatD.decrypt.encode_of_decode h hd

/-- The opcode of a legal word is that of the instruction it decodes to. -/
theorem opc_of_decode {w : Word} {i : Instr} (hd : decode w = .ok i) :
    w.extractLsb' 28 4 = i.opcode := by
  obtain ⟨-, rfl⟩ := encodeDecodeRoundTrip w i hd
  exact extractLsb'_opc_encode i

/-! ### The opcode map's masks -/

section
variable {w : Word} {i : Instr}

/-- Every encoded instruction has its row's match under its row's mask. -/
theorem encode_and_opMask (hi : i.WellFormed) : encode i &&& i.opMask = i.opMatch := by
  cases i with
  | gfAdd p a b => exact Laws.EncodesItsRow.gfAdd p a b hi
  | gfMul p a b => exact Laws.EncodesItsRow.gfMul p a b hi
  | gfInv p a => exact Laws.EncodesItsRow.gfInv p a hi
  | config bsz ksz p m => exact Laws.EncodesItsRow.config bsz ksz p m hi
  | loadKey => exact Laws.EncodesItsRow.loadKey hi
  | loadIv => exact Laws.EncodesItsRow.loadIv hi
  | encrypt => exact Laws.EncodesItsRow.encrypt hi
  | decrypt => exact Laws.EncodesItsRow.decrypt hi

/-- A word that decodes is selected by its row of the opcode map. -/
theorem and_opMask_of_decode (h : decode w = .ok i) : w &&& i.opMask = i.opMatch := by
  obtain ⟨hi, rfl⟩ := encodeDecodeRoundTrip w i h
  exact encode_and_opMask hi

/-- A word of a format D row is selected exactly when it is the row's match: the mask keeps
every bit. -/
theorem FormatD.decode_iff (hi : FormatD i) :
    decode w = .ok i ↔ w &&& 0xFFFFFFFF = i.opMatch := by
  have hmask : i.opMask = 0xFFFFFFFF := by cases hi <;> rfl
  have hmatch : encode i = i.opMatch := by cases hi <;> rfl
  refine ⟨fun h => hmask ▸ and_opMask_of_decode h, fun h => ?_⟩
  obtain rfl : w = encode i := (BitVec.and_allOnes.symm.trans h).trans hmatch.symm
  exact hi.decode_encode

/-- The reserved opcodes as the claim writes them: OPC 0x0 under the mask of OPC, and 0x9 to 0xF as
the words from 0x90000000 up. -/
theorem opc_reserved_of_word (h : w &&& 0xF0000000 = 0x00000000 ∨ 0x90000000#32 ≤ w) :
    w.extractLsb' 28 4 = 0x0 ∨ 0x9#4 ≤ w.extractLsb' 28 4 := by
  refine h.imp (fun h => extractLsb'_of_and_eq h rfl) fun h => ?_
  rw [BitVec.le_def] at h ⊢
  simp only [BitVec.extractLsb'_toNat, Nat.shiftRight_eq_div_pow, BitVec.toNat_ofNat] at h ⊢
  omega

end

/-- Settles O3: a word that decodes is selected by its row, and the mask of a row fixes OPC and the
reserved fields, from which the word decodes. -/
theorem decodeSelectsByMaskAndMatch : Obligations.DecodeSelectsByMaskAndMatch := by
  intro w
  refine ⟨⟨and_opMask_of_decode, fun h => ?_⟩, ⟨and_opMask_of_decode, fun h => ?_⟩,
    ⟨and_opMask_of_decode, fun h => ?_⟩, ⟨and_opMask_of_decode, fun h => ?_⟩,
    FormatD.loadKey.decode_iff, FormatD.loadIv.decode_iff, FormatD.encrypt.decode_iff,
    FormatD.decrypt.decode_iff, fun h i hd => ?_⟩
  · exact decode_gfAdd (extractLsb'_of_and_eq h rfl) (extractLsb'_of_and_eq h rfl)
  · exact decode_gfMul (extractLsb'_of_and_eq h rfl) (extractLsb'_of_and_eq h rfl)
  · exact decode_gfInv (extractLsb'_of_and_eq h rfl) (extractLsb'_of_and_eq h rfl)
      (extractLsb'_of_and_eq h rfl)
  · exact decode_of_opc_config (extractLsb'_of_and_eq h rfl)
  · simp [decode_of_opc_reserved (opc_reserved_of_word h)] at hd

/-- Settles O5: `decode` computes each row of the table. -/
theorem workedEncodingsDecode : Obligations.WorkedEncodingsDecode := by
  unfold Obligations.WorkedEncodingsDecode
  decide

/-! ### Illegal words (30_encoding.md R52) -/

section
variable {w : Word} {i : Instr}

theorem decodeG_error (hz : w.extractLsb' 24 4 ≠ 0) : decodeG w i = .error .reservedFieldZ :=
  if_neg hz

theorem decodeD_error (hz : w.extractLsb' 0 28 ≠ 0) : decodeD w i = .error .reservedFieldZ :=
  if_neg hz

/-- A GF word with a non-zero Z is illegal. -/
theorem decode_error_of_fieldZ_formatG (hopc : w.extractLsb' 28 4 ∈ [0x1#4, 0x2#4, 0x3#4])
    (hz : w.extractLsb' 24 4 ≠ 0) : ∃ x, decode w = .error x := by
  simp only [List.mem_cons, List.not_mem_nil, or_false] at hopc
  rcases hopc with h | h | h
  · exact ⟨_, (decode_of_opc_gfAdd h).trans (decodeG_error hz)⟩
  · exact ⟨_, (decode_of_opc_gfMul h).trans (decodeG_error hz)⟩
  · rw [decode_of_opc_gfInv h]
    split
    · exact ⟨_, decodeG_error hz⟩
    · exact ⟨_, rfl⟩

/-- A GF_INV word with a non-zero B is illegal. -/
theorem decode_error_of_fieldB (hopc : w.extractLsb' 28 4 = 0x3) (hb : w.extractLsb' 0 8 ≠ 0) :
    ∃ x, decode w = .error x :=
  ⟨_, (decode_of_opc_gfInv hopc).trans (if_neg hb)⟩

/-- A format D word with a non-zero Z is illegal. -/
theorem decode_error_of_fieldZ_formatD
    (hopc : w.extractLsb' 28 4 ∈ [0x5#4, 0x6#4, 0x7#4, 0x8#4]) (hz : w.extractLsb' 0 28 ≠ 0) :
    ∃ x, decode w = .error x := by
  simp only [List.mem_cons, List.not_mem_nil, or_false] at hopc
  rcases hopc with h | h | h | h
  · exact ⟨_, (decode_of_opc_loadKey h).trans (decodeD_error hz)⟩
  · exact ⟨_, (decode_of_opc_loadIv h).trans (decodeD_error hz)⟩
  · exact ⟨_, (decode_of_opc_encrypt h).trans (decodeD_error hz)⟩
  · exact ⟨_, (decode_of_opc_decrypt h).trans (decodeD_error hz)⟩

end

end Sys2Proof

namespace Sys2Proof.Machine

open Claims

section
variable {s : State} {c : Command} {rest : List HostEvent}

/-- A step on a presented word that does not decode answers ERR_ILLEGAL and leaves the registers. -/
theorem step_of_decode_error {x : Illegal} (hs : s.inputs = .command c :: rest)
    (hd : decode c.word = .error x) :
    step s = .next (answered s rest s.regs .errIllegal []) := by
  simp [step, hs, hd, State.accept, State.illegal, State.raise, State.respond, answered]

end

/-- Settles O4: each of the reserved forms fails to decode. -/
theorem illegalWordsAnswerErrIllegal : Obligations.IllegalWordsAnswerErrIllegal := by
  intro s c rest hs h
  obtain ⟨x, hd⟩ : ∃ x, decode c.word = .error x := by
    rcases h with h | h | ⟨hopc, hz⟩ | ⟨hopc, hb⟩ | ⟨hopc, hz⟩
    · exact ⟨_, decode_of_opc_reserved (.inl h)⟩
    · exact ⟨_, decode_of_opc_reserved (.inr h)⟩
    · exact decode_error_of_fieldZ_formatG hopc hz
    · exact decode_error_of_fieldB hopc hb
    · exact decode_error_of_fieldZ_formatD hopc hz
  exact ⟨step_of_decode_error hs hd, rfl⟩

/-! ### Responses (30_encoding.md R46) -/

/-- The responses R46 allows a command with opcode `opc` on a core whose registers are `regs`. -/
inductive Answer (opc : BitVec 4) (regs : Option CipherRegs) : Status → ByteVec → Prop where
  | failed (st : Status) (hst : st ≠ .ok) : Answer opc regs st []
  | gf (hopc : opc ∈ [0x1#4, 0x2#4, 0x3#4]) (v : Byte) : Answer opc regs .ok [v]
  | config (hopc : opc ∈ [0x4#4, 0x5#4, 0x6#4]) : Answer opc regs .ok []
  | block (hopc : opc ∈ [0x7#4, 0x8#4]) (r : CipherRegs) (hr : regs = some r) (v : ByteVec)
      (hv : v.length = r.bsz.bytes) : Answer opc regs .ok v

/-- `t` is `s` with one response more, one that R46 allows. -/
def AnswersOnce (opc : BitVec 4) (s t : State) : Prop :=
  ∃ st v, t.responses = s.responses ++ [⟨st, v⟩] ∧ Answer opc s.regs st v

section
variable {i : Instr} {s t : State} {r : CipherRegs} {p v : Byte} {opc : BitVec 4}
  {rule : CipherRegs → ByteVec → Option BlockOutcome}

theorem GfCommand.opcode_mem (hi : GfCommand i p v) : i.opcode ∈ [0x1#4, 0x2#4, 0x3#4] := by
  cases hi <;> simp [Instr.opcode]

theorem BlockCommand.opcode_mem (hi : BlockCommand i rule) : i.opcode ∈ [0x7#4, 0x8#4] := by
  cases hi <;> simp [Instr.opcode]

theorem raise_answersOnce {e : Status} (he : e ≠ .ok) : AnswersOnce opc s (s.raise e) :=
  ⟨e, [], rfl, .failed e he⟩

/-- A success of CONFIG, LOAD_KEY or LOAD_IV answers an empty result. -/
theorem answersOnce_of_config (hopc : opc ∈ [0x4#4, 0x5#4, 0x6#4])
    (ht : t.responses = s.responses ++ [⟨.ok, []⟩]) : AnswersOnce opc s t :=
  ⟨.ok, [], ht, .config hopc⟩

theorem exec_gf_answersOnce (hi : GfCommand i p v) (hx : exec i s = .next t) :
    AnswersOnce i.opcode s t := by
  obtain rfl := Host.Outcome.next.inj ((exec_gf hi).symm.trans hx)
  rcases gfRespond_cases p v s with ⟨-, e⟩ | ⟨-, e⟩ <;> rw [e]
  · exact ⟨.ok, [v], rfl, .gf hi.opcode_mem v⟩
  · exact raise_answersOnce (by decide)

/-- None of CONFIG's six checks fails with the status of a success (42_config.md R100). -/
theorem checkConfig_error_ne_ok {bsz ksz n : Nat} {o : Operands} {e : Status}
    (h : checkConfig bsz ksz p n o = .error e) : e ≠ .ok := by
  rintro rfl
  unfold checkConfig at h
  repeat' split at h
  all_goals simp at h

theorem exec_config_answersOnce {bsz ksz n : Nat}
    (hx : exec (.config bsz ksz p n) s = .next t) : AnswersOnce 0x4 s t := by
  cases hc : checkConfig bsz ksz p n s.operands with
  | error e =>
    obtain rfl := Host.Outcome.next.inj ((exec_config_of_error hc).symm.trans hx)
    exact raise_answersOnce (checkConfig_error_ne_ok hc)
  | ok bkm =>
    obtain rfl := Host.Outcome.next.inj ((exec_config_of_ok hc).symm.trans hx)
    exact answersOnce_of_config (by decide) rfl

theorem exec_loadKey_answersOnce (hs : s.regs = some r) (hx : exec .loadKey s = .next t) :
    AnswersOnce 0x5 s t := by
  rw [exec_loadKey_of_regs hs] at hx
  obtain rfl := Host.Outcome.next.inj hx
  split
  · exact answersOnce_of_config (by decide) rfl
  · exact raise_answersOnce (by decide)

theorem exec_loadIv_answersOnce (hs : s.regs = some r) (hx : exec .loadIv s = .next t) :
    AnswersOnce 0x6 s t := by
  rw [exec_loadIv_of_regs hs] at hx
  obtain rfl := Host.Outcome.next.inj hx
  split
  · exact answersOnce_of_config (by decide) rfl
  · split
    · exact answersOnce_of_config (by decide) rfl
    · exact raise_answersOnce (by decide)

/-- ENCRYPT and DECRYPT answer CFG_BSZ bytes because every mode rule does (43_modes.md R112 to
R119). -/
theorem exec_block_answersOnce (hi : BlockCommand i rule) (h : s.Inv) (hs : s.regs = some r)
    (hx : exec i s = .next t) : AnswersOnce i.opcode s t := by
  rcases exec_block_cases hi hs hx with ⟨-, rfl⟩ | ⟨out, hd, ho, rfl⟩
  · exact raise_answersOnce (by decide)
  · exact ⟨.ok, out.result, rfl, .block hi.opcode_mem r hs _ (hi.fits (h r hs) hd ho).resultLength⟩

/-- Under the invariant every command gives one response that R46 allows it. -/
theorem exec_answersOnce (h : s.Inv) (hx : exec i s = .next t) : AnswersOnce i.opcode s t := by
  rcases instr_classes i with ⟨p, v, hi⟩ | ⟨bsz, ksz, p, n, rfl⟩ | hi
  · exact exec_gf_answersOnce hi hx
  · exact exec_config_answersOnce hx
  · cases hs : s.regs with
    | none =>
      have hmem : i ∈ [.loadKey, .loadIv, .encrypt, .decrypt] := by
        rcases hi with rfl | rfl | ⟨rule, hi⟩
        · simp
        · simp
        · exact hi.mem_needs_config
      obtain rfl := Host.Outcome.next.inj ((exec_of_unconfigured hs hmem).symm.trans hx)
      exact raise_answersOnce (by decide)
    | some r =>
      rcases hi with rfl | rfl | ⟨rule, hi⟩
      · exact exec_loadKey_answersOnce hs hx
      · exact exec_loadIv_answersOnce hs hx
      · exact exec_block_answersOnce hi h hs hx

/-- Under the invariant a step on a presented command takes it in and gives one response that R46
allows the command's opcode. -/
theorem step_answersOnce {c : Command} {rest : List HostEvent} (h : s.Inv)
    (hs : s.inputs = .command c :: rest) :
    ∃ t, step s = .next t ∧ t.inputs = rest ∧ AnswersOnce (c.word.extractLsb' 28 4) s t := by
  cases hd : decode c.word with
  | ok i =>
    obtain ⟨t, hx⟩ := exec_completes (s := s.accept c rest) i h
    obtain ⟨hin, -, -⟩ := exec_next_interface hx
    refine ⟨t, (step_of_decode hs hd).trans hx, hin, ?_⟩
    rw [opc_of_decode hd]
    exact exec_answersOnce (s := s.accept c rest) h hx
  | error x =>
    exact ⟨_, step_of_decode_error hs hd, rfl, .errIllegal, [], rfl, .failed _ (by decide)⟩

/-- The opcodes of the GF commands, of the block commands and of the configuration commands exclude
each other. -/
theorem opcode_classes_disjoint (opc : BitVec 4) :
    (opc ∈ [0x1#4, 0x2#4, 0x3#4] → opc ∉ [0x7#4, 0x8#4]) ∧
      (opc ∈ [0x1#4, 0x2#4, 0x3#4] → opc ∉ [0x4#4, 0x5#4, 0x6#4]) ∧
      (opc ∈ [0x7#4, 0x8#4] → opc ∉ [0x4#4, 0x5#4, 0x6#4]) := by
  revert opc
  decide

/-- The result lengths R46 states, class by class. -/
theorem Answer.result_length {regs : Option CipherRegs} {st : Status} {res : ByteVec}
    (ha : Answer opc regs st res) :
    (st ≠ .ok → res = []) ∧
      (st = .ok → opc ∈ [0x1#4, 0x2#4, 0x3#4] → res.length = 1) ∧
      (st = .ok → opc ∈ [0x7#4, 0x8#4] → ∃ r, regs = some r ∧ res.length = r.bsz.bytes) ∧
      (opc ∈ [0x4#4, 0x5#4, 0x6#4] → res = []) := by
  obtain ⟨hgb, hgc, hbc⟩ := opcode_classes_disjoint opc
  cases ha with
  | failed st hst =>
    exact ⟨fun _ => rfl, fun h => absurd h hst, fun h => absurd h hst, fun _ => rfl⟩
  | gf hopc v =>
    exact ⟨fun h => absurd rfl h, fun _ _ => rfl, fun _ h => absurd h (hgb hopc),
      fun h => absurd h (hgc hopc)⟩
  | config hopc =>
    exact ⟨fun _ => rfl, fun _ h => absurd hopc (hgc h), fun _ h => absurd hopc (hbc h),
      fun _ => rfl⟩
  | block hopc r hr v hv =>
    exact ⟨fun h => absurd rfl h, fun _ h => absurd hopc (hgb h), fun _ _ => ⟨r, hr, hv⟩,
      fun h => absurd h (hbc hopc)⟩

end

/-- The codes of 60_exceptions.md R125. -/
theorem statusCodesOfR125 : StatusCodesOfR125 :=
  ⟨rfl, rfl, rfl, rfl, rfl, rfl, rfl, rfl, rfl, rfl⟩

/-- Settles O10: a step answers once, with a result as long as R46 says. -/
theorem everyCommandGetsOneResponse : Obligations.EveryCommandGetsOneResponse := by
  refine ⟨statusCodesOfR125, fun s c rest h hs => ?_⟩
  obtain ⟨t, hx, hin, st, res, hresp, ha⟩ := step_answersOnce h hs
  exact ⟨t, st, res, hx, hresp, hin, ha.result_length⟩

end Sys2Proof.Machine

/-! ## Proofs of the statements of 40_gf_arith.md

The model computes on bytes and natural numbers; the laws are those of the ring GF(2)[x]/(M(p)). Every
number is read as a polynomial (`numPoly`), every byte as a residue class (`residue`), and what the
model's functions do is said once in those terms. -/

namespace Sys2Proof.Machine

open Claims Polynomial

/-! ### Numbers as polynomials over GF(2) -/

/-- A natural number as a polynomial over GF(2), bit i the coefficient of x^i: the dividends of
40_gf_arith.md R65, which need more than a byte. -/
noncomputable def numPoly (n : Nat) : (ZMod 2)[X] :=
  ∑ i ∈ Finset.range n.size, if n.testBit i then X ^ i else 0

/-- The coefficient a bit stands for. -/
def bitCoeff (b : Bool) : ZMod 2 := if b then 1 else 0

theorem bitCoeff_xor (b c : Bool) : bitCoeff (b ^^ c) = bitCoeff b + bitCoeff c := by
  revert b c
  decide

theorem bitCoeff_injective : Function.Injective bitCoeff := by
  intro b c
  revert b c
  decide

theorem coeff_ite_X_pow (b : Bool) (i k : Nat) :
    (if b then X ^ i else 0 : (ZMod 2)[X]).coeff k = if k = i then bitCoeff b else 0 := by
  cases b <;> simp [bitCoeff, coeff_X_pow]

theorem testBit_of_size_le {n k : Nat} (h : n.size ≤ k) : n.testBit k = false :=
  Nat.testBit_lt_two_pow (Nat.size_le.mp h)

@[simp] theorem coeff_numPoly (n k : Nat) : (numPoly n).coeff k = bitCoeff (n.testBit k) := by
  simp only [numPoly, finsetSum_coeff, coeff_ite_X_pow, Finset.sum_ite_eq, Finset.mem_range]
  split_ifs with h
  · rfl
  · simp [testBit_of_size_le (not_lt.mp h), bitCoeff]

@[simp] theorem coeff_bytePoly (b : Byte) (k : Nat) :
    (bytePoly b).coeff k = bitCoeff (b.getLsbD k) := by
  simp only [bytePoly, finsetSum_coeff, coeff_ite_X_pow, Finset.sum_ite_eq, Finset.mem_range]
  split_ifs with h
  · rfl
  · simp [BitVec.getLsbD_of_ge b k (not_lt.mp h), bitCoeff]

theorem numPoly_toNat (b : Byte) : numPoly b.toNat = bytePoly b := by
  ext k
  rw [coeff_numPoly, coeff_bytePoly, BitVec.testBit_toNat]

theorem numPoly_xor (m n : Nat) : numPoly (m ^^^ n) = numPoly m + numPoly n := by
  ext k
  simp [bitCoeff_xor]

theorem numPoly_shiftLeft (n i : Nat) : numPoly (n <<< i) = numPoly n * X ^ i := by
  ext k
  by_cases h : i ≤ k <;> simp [coeff_mul_X_pow', h, bitCoeff]

@[simp] theorem numPoly_zero : numPoly 0 = 0 := by
  ext k
  simp [bitCoeff]

@[simp] theorem bytePoly_zero : bytePoly 0#8 = 0 := by simp [bytePoly]

@[simp] theorem bytePoly_one : bytePoly 1#8 = 1 := by simp [bytePoly]

@[simp] theorem numPoly_one : numPoly 1 = 1 := (numPoly_toNat 1#8).trans bytePoly_one

/-- The 9-bit number of 40_gf_arith.md R61 spells M(p). -/
theorem numPoly_gfModulus (p : Byte) : numPoly (gfModulus p) = modulusPoly p := by
  have h : gfModulus p = 1 <<< 8 ^^^ p.toNat := by
    unfold gfModulus
    revert p
    decide +kernel
  rw [h, numPoly_xor, numPoly_shiftLeft, numPoly_toNat, numPoly_one, one_mul, modulusPoly]

theorem bytePoly_injective : Function.Injective bytePoly := by
  intro a b h
  refine BitVec.eq_of_getLsbD_eq fun i _ => bitCoeff_injective ?_
  rw [← coeff_bytePoly, h, coeff_bytePoly]

theorem degree_bytePoly_lt (b : Byte) : (bytePoly b).degree < 8 := by
  refine (degree_lt_iff_coeff_zero _ 8).mpr fun k hk => ?_
  simp [BitVec.getLsbD_of_ge b k hk, bitCoeff]

theorem bytePoly_gfAdd (a b : Byte) : bytePoly (gfAdd a b) = bytePoly a + bytePoly b := by
  rw [← numPoly_toNat, gfAdd, BitVec.toNat_xor, numPoly_xor, numPoly_toNat, numPoly_toNat]

theorem degree_modulusPoly (p : Byte) : (modulusPoly p).degree = 8 := by
  have h : (X ^ 8 : (ZMod 2)[X]).degree = 8 := degree_X_pow 8
  rw [modulusPoly, degree_add_eq_left_of_degree_lt (h ▸ degree_bytePoly_lt p), h]

theorem modulusPoly_monic (p : Byte) : (modulusPoly p).Monic :=
  monic_X_pow_add (degree_bytePoly_lt p)

/-! ### Multiplication: the carry-less product and the long division (R64 to R66) -/

/-- One term of the carry-less product: `a << i` where bit i of `b` is set (R64). -/
def clmulPass (a b : Byte) (acc i : Nat) : Nat :=
  if b.getLsbD i then acc ^^^ (a.toNat <<< i) else acc

theorem clmul_eq_foldl (a b : Byte) : clmul a b = (List.range 8).foldl (clmulPass a b) 0 := rfl

theorem numPoly_clmulPass (a b : Byte) (acc i : Nat) :
    numPoly (clmulPass a b acc i) =
      numPoly acc + bytePoly a * (if b.getLsbD i = true then X ^ i else 0) := by
  unfold clmulPass
  split <;> simp [numPoly_xor, numPoly_shiftLeft, numPoly_toNat]

theorem clmulPass_lt {a b : Byte} {acc i : Nat} (hi : i < 8) (h : acc < 2 ^ 15) :
    clmulPass a b acc i < 2 ^ 15 := by
  unfold clmulPass
  split
  · refine Nat.xor_lt_two_pow h ?_
    calc a.toNat <<< i = a.toNat * 2 ^ i := Nat.shiftLeft_eq _ _
      _ ≤ a.toNat * 2 ^ 7 := Nat.mul_le_mul_left _ (Nat.pow_le_pow_right (by decide) (by omega))
      _ < 2 ^ 15 := by have := a.isLt; omega
  · exact h

/-- The carry-less product is the product of polynomials. -/
theorem numPoly_clmul (a b : Byte) : numPoly (clmul a b) = bytePoly a * bytePoly b := by
  have passes (n : Nat) : numPoly ((List.range n).foldl (clmulPass a b) 0) =
      bytePoly a * ∑ i ∈ Finset.range n, if b.getLsbD i = true then X ^ i else 0 := by
    induction n with
    | zero => simp
    | succ n ih =>
      rw [List.range_succ, List.foldl_append, List.foldl_cons, List.foldl_nil, numPoly_clmulPass,
        ih, Finset.sum_range_succ, mul_add]
  exact passes 8

theorem clmul_lt (a b : Byte) : clmul a b < 2 ^ 15 :=
  List.foldlRecOn (motive := (· < 2 ^ 15)) (List.range 8) (clmulPass a b) (by decide)
    fun _ h _ hi => clmulPass_lt (List.mem_range.mp hi) h

/-- Exclusive-or clears a top bit the two numbers share. -/
theorem xor_lt_of_same_top_bit {m n k : Nat} (hm : 2 ^ k ≤ m) (hm' : m < 2 ^ (k + 1))
    (hn : 2 ^ k ≤ n) (hn' : n < 2 ^ (k + 1)) : m ^^^ n < 2 ^ k := by
  refine Nat.lt_pow_two_of_testBit _ fun i hi => ?_
  rw [Nat.testBit_xor]
  rcases Nat.eq_or_lt_of_le hi with rfl | hi
  · rw [Nat.testBit_of_two_pow_le_and_two_pow_add_one_gt hm hm',
      Nat.testBit_of_two_pow_le_and_two_pow_add_one_gt hn hn', Bool.xor_self]
  · have le : 2 ^ (k + 1) ≤ 2 ^ i := Nat.pow_le_pow_right (by decide) hi
    rw [Nat.testBit_lt_two_pow (hm'.trans_le le), Nat.testBit_lt_two_pow (hn'.trans_le le),
      Bool.xor_self]

theorem gfModulus_bounds (p : Byte) : 2 ^ 8 ≤ gfModulus p ∧ gfModulus p < 2 ^ 9 := by
  unfold gfModulus
  revert p
  decide +kernel

/-- A pass of the long division clears the dividend's highest bit (R65). -/
theorem reducePass_lt {d : Nat} (p : Byte) (h : 0x100 ≤ d) :
    d ^^^ (gfModulus p <<< (d.log2 - 8)) < 2 ^ d.log2 := by
  have hd : d ≠ 0 := by omega
  have h8 : 8 ≤ d.log2 := (Nat.le_log2 hd).mpr h
  obtain ⟨hlo, hhi⟩ := gfModulus_bounds p
  refine xor_lt_of_same_top_bit (Nat.log2_self_le hd) Nat.lt_log2_self ?_ ?_ <;>
    rw [Nat.shiftLeft_eq]
  · calc 2 ^ d.log2 = 2 ^ 8 * 2 ^ (d.log2 - 8) := by rw [← pow_add]; congr 1; omega
      _ ≤ _ := Nat.mul_le_mul_right _ hlo
  · calc gfModulus p * 2 ^ (d.log2 - 8) < 2 ^ 9 * 2 ^ (d.log2 - 8) :=
          Nat.mul_lt_mul_of_pos_right hhi (by positivity)
      _ = 2 ^ (d.log2 + 1) := by rw [← pow_add]; congr 1; omega

/-- `n` passes bring any dividend below 2^(8+n) into a byte; seven suffice for a product (R65). -/
theorem gfReducePasses_lt (p : Byte) (n d : Nat) (h : d < 2 ^ (8 + n)) :
    gfReducePasses (gfModulus p) n d < 2 ^ 8 := by
  induction n generalizing d with
  | zero => exact h
  | succ n ih =>
    rw [gfReducePasses]
    split
    case isTrue hd =>
      have hlog : d.log2 < 8 + (n + 1) := (Nat.log2_lt (by omega)).mpr h
      exact ih _ ((reducePass_lt p hd).trans_le (Nat.pow_le_pow_right (by decide) (by omega)))
    case isFalse hd => omega

/-- The long division changes the dividend by multiples of M(p) only. -/
theorem mk_numPoly_gfReducePasses (p : Byte) (n d : Nat) :
    AdjoinRoot.mk (modulusPoly p) (numPoly (gfReducePasses (gfModulus p) n d)) =
      AdjoinRoot.mk (modulusPoly p) (numPoly d) := by
  induction n generalizing d with
  | zero => rfl
  | succ n ih =>
    rw [gfReducePasses]
    split
    · rw [ih, numPoly_xor, numPoly_shiftLeft, numPoly_gfModulus]
      simp
    · rfl

/-! ### Bytes as the elements of GF(2)[x]/(M(p)) -/

/-- The element of GF(2)[x]/(M(p)) a byte names (R71). -/
noncomputable def residue (p a : Byte) : AdjoinRoot (modulusPoly p) :=
  AdjoinRoot.mk (modulusPoly p) (bytePoly a)

/-- A byte's polynomial is the remainder of everything in its residue class. -/
theorem bytePoly_eq_modByMonic {p c : Byte} {f : (ZMod 2)[X]}
    (h : residue p c = AdjoinRoot.mk (modulusPoly p) f) : bytePoly c = f %ₘ modulusPoly p := by
  have hc : bytePoly c %ₘ modulusPoly p = bytePoly c :=
    (modByMonic_eq_self_iff (modulusPoly_monic p)).mpr
      ((degree_bytePoly_lt c).trans_eq (degree_modulusPoly p).symm)
  rw [← hc, ← AdjoinRoot.modByMonicHom_mk (modulusPoly_monic p), ← residue, h,
    AdjoinRoot.modByMonicHom_mk]

section
variable {p a b : Byte}

theorem residue_injective (p : Byte) : Function.Injective (residue p) := by
  intro a b h
  apply bytePoly_injective
  rw [bytePoly_eq_modByMonic h, ← bytePoly_eq_modByMonic (c := b) rfl]

theorem residue_inj : residue p a = residue p b ↔ a = b := (residue_injective p).eq_iff

@[simp] theorem residue_zero (p : Byte) : residue p 0#8 = 0 := by simp [residue]

@[simp] theorem residue_one (p : Byte) : residue p 1#8 = 1 := by simp [residue]

@[simp] theorem residue_gfAdd (p a b : Byte) :
    residue p (gfAdd a b) = residue p a + residue p b := by
  simp [residue, bytePoly_gfAdd]

@[simp] theorem residue_gfMul (p a b : Byte) :
    residue p (gfMul a b p) = residue p a * residue p b := by
  have hlt := gfReducePasses_lt p 7 (clmul a b) (clmul_lt a b)
  have hn : (gfMul a b p).toNat = gfReducePasses (gfModulus p) 7 (clmul a b) := by
    rw [gfMul, gfReduce, BitVec.toNat_ofNat, Nat.mod_eq_of_lt hlt]
  rw [residue, ← numPoly_toNat, hn, mk_numPoly_gfReducePasses, numPoly_clmul, map_mul, residue,
    residue]

/-- One bit of square-and-multiply (R67). -/
def squareMultiply (a p r : Byte) (e : Bool) : Byte :=
  if e then gfMul (gfMul r r p) a p else gfMul r r p

/-- Square-and-multiply raises to the power whose bits it runs over, most significant first. -/
theorem residue_foldl_squareMultiply {r : Byte} {k : Nat} (bits : List Bool)
    (h : residue p r = residue p a ^ k) :
    residue p (bits.foldl (squareMultiply a p) r) =
      residue p a ^ bits.foldl (fun n e => 2 * n + e.toNat) k := by
  induction bits generalizing r k with
  | nil => exact h
  | cons e bits ih =>
    refine ih ?_
    cases e <;> simp [squareMultiply, h, pow_add, two_mul]

/-- The exponent of R67 is 254. -/
@[simp] theorem residue_gfInv (p a : Byte) : residue p (gfInv a p) = residue p a ^ 254 := by
  unfold gfInv
  split
  case isTrue h => simp [h]
  case isFalse h =>
    have hexp : 254 = invExponent.foldl (fun n e => 2 * n + e.toNat) 0 := by decide
    rw [hexp]
    exact residue_foldl_squareMultiply invExponent ((residue_one p).trans (pow_zero _).symm)

end

/-- Settles O19: gfMul lies in the residue class of the product. -/
theorem gfMulIsProductModulo : Obligations.GfMulIsProductModulo := by
  intro a b p
  apply bytePoly_eq_modByMonic
  rw [residue_gfMul, map_mul, residue, residue]

/-- Settles O49: gfInv lies in the residue class of the 254th power. -/
theorem gfInvIsPower254 : Obligations.GfInvIsPower254 := by
  intro a p
  apply bytePoly_eq_modByMonic
  rw [residue_gfInv, map_pow, residue]

/-! ### The ring laws (R71) -/

section
variable (p a b c : Byte)

theorem gfMul_comm : gfMul a b p = gfMul b a p :=
  residue_injective p (by simp [mul_comm])

theorem gfMul_assoc : gfMul a (gfMul b c p) p = gfMul (gfMul a b p) c p :=
  residue_injective p (by simp [mul_assoc])

@[simp] theorem gfMul_one : gfMul a 1#8 p = a := residue_injective p (by simp)

@[simp] theorem one_gfMul : gfMul 1#8 b p = b := residue_injective p (by simp)

@[simp] theorem gfMul_zero : gfMul a 0#8 p = 0#8 := residue_injective p (by simp)

@[simp] theorem zero_gfMul : gfMul 0#8 b p = 0#8 := residue_injective p (by simp)

theorem gfMul_gfAdd : gfMul a (gfAdd b c) p = gfAdd (gfMul a b p) (gfMul a c p) :=
  residue_injective p (by simp [mul_add])

@[simp] theorem gfInv_zero : gfInv 0#8 p = 0#8 := residue_injective p (by simp)

@[simp] theorem gfInv_one : gfInv 1#8 p = 1#8 := residue_injective p (by simp)

theorem gfAdd_comm : gfAdd a b = gfAdd b a := BitVec.xor_comm a b

theorem gfAdd_assoc : gfAdd a (gfAdd b c) = gfAdd (gfAdd a b) c := (BitVec.xor_assoc a b c).symm

@[simp] theorem gfAdd_zero : gfAdd a 0#8 = a := BitVec.xor_zero

@[simp] theorem gfAdd_self : gfAdd a a = 0#8 := BitVec.xor_self

end

/-- Settles O20: the residue classes are a commutative ring, and bytes name them one to one. -/
theorem gfRingLaws : Obligations.GfRingLaws := by
  intro p a b c _
  exact ⟨fun h => bytePoly_injective h, bytePoly_gfAdd a b, gfMulIsProductModulo a b p,
    gfAdd_comm a b, gfAdd_assoc a b c, gfAdd_zero a, gfAdd_self a, gfMul_comm p a b,
    gfMul_assoc p a b c, gfMul_one p a, gfMul_zero p a, gfMul_gfAdd p a b c, gfInv_zero p,
    gfInv_one p⟩

/-! ### Inverses and irreducibility (R72) -/

theorem finite_adjoinRoot_modulusPoly (p : Byte) : Finite (AdjoinRoot (modulusPoly p)) :=
  have := (modulusPoly_monic p).finite_adjoinRoot
  Module.finite_of_finite (ZMod 2)

theorem natCard_adjoinRoot_modulusPoly (p : Byte) :
    Nat.card (AdjoinRoot (modulusPoly p)) = 256 := by
  have hm := modulusPoly_monic p
  have := hm.finite_adjoinRoot
  rw [Module.natCard_eq_pow_finrank (K := ZMod 2), (AdjoinRoot.powerBasis' hm).finrank,
    AdjoinRoot.powerBasis'_dim, natDegree_eq_of_degree_eq_some (degree_modulusPoly p),
    Nat.card_zmod]
  norm_num

/-- Every element of the ring is named by exactly one byte. -/
theorem residue_bijective (p : Byte) : Function.Bijective (residue p) := by
  have := finite_adjoinRoot_modulusPoly p
  refine (residue_injective p).bijective_of_nat_card_le ?_
  rw [natCard_adjoinRoot_modulusPoly, Nat.card_congr BitVec.equivFin.toEquiv, Nat.card_fin]
  norm_num

theorem nontrivial_adjoinRoot_modulusPoly (p : Byte) : Nontrivial (AdjoinRoot (modulusPoly p)) :=
  AdjoinRoot.nontrivial _ (by rw [degree_modulusPoly]; decide)

section
variable {p : Byte}

theorem residue_ne_zero {a : Byte} (h : a ≠ 0) : residue p a ≠ 0 := by
  rw [← residue_zero p]
  exact fun e => h (residue_injective p e)

/-- Where M(p) is irreducible, gfInv is inversion in the field of 256 elements. -/
theorem residue_gfInv_mul_of_irreducible (h : Irreducible (modulusPoly p)) {a : Byte}
    (ha : a ≠ 0) :
    residue p a * residue p (gfInv a p) = 1 := by
  have := Fact.mk h
  have := finite_adjoinRoot_modulusPoly p
  have := Fintype.ofFinite (AdjoinRoot (modulusPoly p))
  have h255 := FiniteField.pow_card_sub_one_eq_one (residue p a) (residue_ne_zero ha)
  rw [← Nat.card_eq_fintype_card, natCard_adjoinRoot_modulusPoly] at h255
  rw [residue_gfInv, ← pow_succ', h255]

theorem gfMul_gfInv_eq_one_iff {a : Byte} :
    gfMul a (gfInv a p) p = 1 ↔ residue p a * residue p (gfInv a p) = 1 := by
  rw [← residue_gfMul, ← residue_one p]
  exact residue_inj.symm

/-- Where every non-zero byte has an inverse, the ring is a field, and its modulus is irreducible. -/
theorem irreducible_of_gfMul_gfInv (h : ∀ a : Byte, a ≠ 0 → gfMul a (gfInv a p) p = 1) :
    Irreducible (modulusPoly p) := by
  have field : IsField (AdjoinRoot (modulusPoly p)) := by
    refine ⟨(nontrivial_adjoinRoot_modulusPoly p).exists_pair_ne, mul_comm, fun {x} hx => ?_⟩
    obtain ⟨a, rfl⟩ := (residue_bijective p).surjective x
    have ha : a ≠ 0 := by rintro rfl; exact hx (residue_zero p)
    exact ⟨_, gfMul_gfInv_eq_one_iff.mp (h a ha)⟩
  have hmax := Ideal.Quotient.maximal_of_isField _ field
  exact ((Ideal.span_singleton_prime (modulusPoly_monic p).ne_zero).mp hmax.isPrime).irreducible

end

theorem modulusPoly_05 : modulusPoly 0x05 = (X ^ 4 + X + 1) ^ 2 := by
  have h : bytePoly 0x05 = X ^ 2 + 1 := by
    simp [bytePoly, Finset.sum_range_succ, add_comm]
  rw [modulusPoly, h, CharTwo.add_sq, CharTwo.add_sq]
  ring

/-- Settles O21: the ring is a field exactly when its modulus is irreducible; the count is by evaluation
of all 255 bytes. -/
theorem inverseLawIffIrreducible : Obligations.InverseLawIffIrreducible := by
  refine ⟨fun p _ => ⟨irreducible_of_gfMul_gfInv, fun h a ha => ?_⟩, by decide +kernel,
    modulusPoly_05⟩
  exact gfMul_gfInv_eq_one_iff.mpr (residue_gfInv_mul_of_irreducible h ha)

/-! ### The GF commands (R68 to R70) -/

section
variable {s : State} {c : Command} {rest : List HostEvent} {i : Instr} {p v : Byte}

theorem gfRespond_of_polyValid (h : PolyValid p) :
    gfRespond p v s = answered s s.inputs s.regs .ok [v] := by
  have hv := (polyValid_iff p).mpr h
  rcases gfRespond_cases p v s with ⟨-, e⟩ | ⟨hp, -⟩
  · exact e
  · simp [hv] at hp

theorem gfRespond_of_not_polyValid (h : ¬ PolyValid p) :
    gfRespond p v s = answered s s.inputs s.regs .errPoly [] := by
  rcases gfRespond_cases p v s with ⟨hp, -⟩ | ⟨-, e⟩
  · exact absurd ((polyValid_iff p).mp hp) h
  · exact e

/-- A GF command under a valid polynomial answers its byte. -/
theorem step_gf_of_polyValid (hi : GfCommand i p v) (hs : s.inputs = .command c :: rest)
    (hd : decode c.word = .ok i) (h : PolyValid p) :
    step s = .next (answered s rest s.regs .ok [v]) := by
  rw [step_of_decode hs hd, exec_gf hi, gfRespond_of_polyValid h]
  rfl

/-- A GF command under an invalid polynomial answers ERR_POLY. -/
theorem step_gf_of_not_polyValid (hi : GfCommand i p v) (hs : s.inputs = .command c :: rest)
    (hd : decode c.word = .ok i) (h : ¬ PolyValid p) :
    step s = .next (answered s rest s.regs .errPoly []) := by
  rw [step_of_decode hs hd, exec_gf hi, gfRespond_of_not_polyValid h]
  rfl

/-- A GF word with a non-zero Z answers ERR_ILLEGAL. -/
theorem step_gf_of_fieldZ (hs : s.inputs = .command c :: rest)
    (hopc : c.word.extractLsb' 28 4 ∈ [0x1#4, 0x2#4, 0x3#4]) (hz : c.word.extractLsb' 24 4 ≠ 0) :
    step s = .next (answered s rest s.regs .errIllegal []) := by
  obtain ⟨x, hx⟩ := decode_error_of_fieldZ_formatG hopc hz
  exact step_of_decode_error hs hx

end

/-- Settles O18: the polynomial is the only thing a GF command checks. -/
theorem gfCommandsComplete : Obligations.GfCommandsComplete := by
  intro s p a b hp
  refine ⟨?_, ?_, ?_⟩
  · rw [exec_gf (.gfAdd p a b), gfRespond_of_polyValid hp, gfAdd]
  · rw [exec_gf (.gfMul p a b), gfRespond_of_polyValid hp]
  · rw [exec_gf (.gfInv p a), gfRespond_of_polyValid hp]

/-- The polynomial of the examples of R68 to R70 is valid. -/
theorem polyValid_aes : PolyValid 0x1b := (polyValid_iff _).mp (by decide)

/-- Settles O15: the word decodes to GF_ADD where Z is 0, and GF_ADD answers the exclusive-or. -/
theorem gfAddAnswersItsRule : Obligations.GfAddAnswersItsRule := by
  intro s c rest hs hopc
  refine ⟨fun hz => step_gf_of_fieldZ hs (by simp [hopc]) hz,
    fun hz hp => step_gf_of_not_polyValid (.gfAdd ..) hs (decode_gfAdd hopc hz) hp,
    fun hz hp => step_gf_of_polyValid (.gfAdd ..) hs (decode_gfAdd hopc hz) hp,
    fun a => ⟨gfAdd_self a, gfAdd_zero a⟩, fun hw => ?_⟩
  have hd : decode c.word = .ok (.gfAdd 0x1b 0x57 0x83) := by rw [hw]; decide
  exact step_gf_of_polyValid (.gfAdd ..) hs hd polyValid_aes

/-- Settles O16: the word decodes to GF_MUL where Z is 0; the corner cases are ring laws. -/
theorem gfMulAnswersItsRule : Obligations.GfMulAnswersItsRule := by
  intro s c rest hs hopc
  refine ⟨fun hz => step_gf_of_fieldZ hs (by simp [hopc]) hz,
    fun hz hp => step_gf_of_not_polyValid (.gfMul ..) hs (decode_gfMul hopc hz) hp,
    fun hz hp => step_gf_of_polyValid (.gfMul ..) hs (decode_gfMul hopc hz) hp,
    fun a b p _ => ⟨zero_gfMul p b, gfMul_zero p a, one_gfMul p b⟩,
    by decide +kernel, by decide +kernel, by decide +kernel, fun hw => ?_⟩
  have hd : decode c.word = .ok (.gfMul 0x1b 0x57 0x83) := by rw [hw]; decide
  have hv : gfMul 0x57 0x83 0x1b = 0xC1 := by decide +kernel
  exact hv ▸ step_gf_of_polyValid (.gfMul ..) hs hd polyValid_aes

/-- The inverse of an inverse is the byte itself (R70). -/
theorem gfInv_gfInv_of_irreducible {p : Byte} (h : Irreducible (modulusPoly p)) (a : Byte) :
    gfInv (gfInv a p) p = a := by
  by_cases ha : a = 0
  · simp [ha]
  have hinv := residue_gfInv_mul_of_irreducible h ha
  have hne : gfInv a p ≠ 0 := by
    intro h0
    have := Fact.mk h
    simp [h0] at hinv
  apply residue_injective p
  exact (left_inv_eq_right_inv hinv (residue_gfInv_mul_of_irreducible h hne)).symm

/-- Settles O17: the word decodes to GF_INV where Z and B are 0; gfInv undoes itself in a field. -/
theorem gfInvAnswersItsRule : Obligations.GfInvAnswersItsRule := by
  intro s c rest hs hopc
  refine ⟨fun h => ?_,
    fun hz hb hp => step_gf_of_not_polyValid (.gfInv ..) hs (decode_gfInv hopc hz hb) hp,
    fun hz hb hp => step_gf_of_polyValid (.gfInv ..) hs (decode_gfInv hopc hz hb) hp,
    fun p _ => ⟨gfInv_zero p, gfInv_one p⟩, fun p _ h a => gfInv_gfInv_of_irreducible h a,
    by decide +kernel, by decide +kernel, fun hw => ?_⟩
  · rcases h with hz | hb
    · exact step_gf_of_fieldZ hs (by simp [hopc]) hz
    · obtain ⟨x, hx⟩ := decode_error_of_fieldB hopc hb
      exact step_of_decode_error hs hx
  · have hd : decode c.word = .ok (.gfInv 0x1b 0x53) := by rw [hw]; decide
    have hv : gfInv 0x53 0x1b = 0xCA := by decide +kernel
    exact hv ▸ step_gf_of_polyValid (.gfInv ..) hs hd polyValid_aes

/-! ### Where the S-box is a bijection (41_rijndael.md R77)

The affine transform is a bijection, so the S-box is one exactly when the 254th power is. That fails
where the ring has a nilpotent element. Elsewhere squaring k times is the identity for some k that 7 does
not divide; then 254 = 2 · (2^7 - 1) is coprime to 2^k - 1, and the 254th power can be undone. It is
enough to square the class of x alone k times, since squaring is a ring homomorphism. -/

theorem lookup_makeSBox (p x : Byte) : lookup (makeSBox p) x = affine (gfInv x p) := by
  rw [lookup, makeSBox, byteAt_map_range _ x.isLt, BitVec.ofNat_toNat, BitVec.setWidth_eq]

/-- The inverse of the affine transform. -/
def invAffine (b : Byte) : Byte := rotl8 b 1 ^^^ rotl8 b 3 ^^^ rotl8 b 6 ^^^ 0x05

theorem invAffine_affine : Function.LeftInverse invAffine affine := by
  unfold Function.LeftInverse
  decide +kernel

theorem affine_bijective : Function.Bijective affine :=
  invAffine_affine.injective.bijective_of_finite

/-- The S-box is a bijection exactly when gfInv is. -/
theorem bijective_lookup_makeSBox_iff (p : Byte) :
    Function.Bijective (lookup (makeSBox p)) ↔ Function.Bijective fun x => gfInv x p := by
  rw [← affine_bijective.of_comp_iff' fun x => gfInv x p]
  exact iff_of_eq (congrArg _ (funext (lookup_makeSBox p)))

section
variable {R : Type*} [Monoid R] {n e : Nat}

theorem pow_one_add_mul_eq_self {z : R} (h : z ^ (n + 1) = z) (v : Nat) : z ^ (1 + v * n) = z := by
  induction v with
  | zero => simp
  | succ v ih => rw [Nat.succ_mul, ← add_assoc, pow_add, ih, ← pow_succ', h]

/-- Where the power n + 1 is the identity, a power coprime to n can be undone by a power. -/
theorem exists_pow_pow_eq_self (he : Nat.Coprime e n) (hn : 1 < n)
    (h : ∀ z : R, z ^ (n + 1) = z) : ∃ m, ∀ z : R, (z ^ e) ^ m = z := by
  obtain ⟨m, -, hm⟩ := Nat.exists_mul_mod_eq_one_of_coprime he hn
  refine ⟨m, fun z => ?_⟩
  have hem : e * m = 1 + e * m / n * n := by rw [← hm, mul_comm _ n, Nat.mod_add_div]
  rw [← pow_mul, hem, pow_one_add_mul_eq_self (h z)]

end

section
variable {p : Byte}

/-- A non-zero byte whose square is 0 has the same 254th power as 0. -/
theorem not_bijective_gfInv_of_nilpotent {a : Byte} (ha : a ≠ 0) (h : gfMul a a p = 0) :
    ¬ Function.Bijective fun x => gfInv x p := by
  intro hb
  have hsq : residue p a ^ 2 = 0 := by rw [pow_two, ← residue_gfMul, h]; exact residue_zero p
  have hinv : gfInv a p = gfInv 0 p := by
    apply residue_injective p
    rw [residue_gfInv, residue_gfInv, pow_mul _ 2 127, hsq]
    simp
  exact ha (hb.injective hinv)

/-- Squaring `k` times, evaluated on bytes. -/
def squared (p : Byte) (k : Nat) (a : Byte) : Byte := (fun r => gfMul r r p)^[k] a

theorem residue_squared (k : Nat) (a : Byte) :
    residue p (squared p k a) = residue p a ^ 2 ^ k := by
  induction k with
  | zero => simp [squared]
  | succ k ih =>
    rw [squared, Function.iterate_succ_apply', ← squared, residue_gfMul, ih, pow_succ, pow_mul,
      pow_two]

/-- A power of Frobenius that fixes the class of x fixes the whole ring. -/
theorem pow_two_pow_eq_self {k : Nat} (h : squared p k 0x02 = 0x02)
    (z : AdjoinRoot (modulusPoly p)) : z ^ 2 ^ k = z := by
  have := nontrivial_adjoinRoot_modulusPoly p
  have := charP_of_injective_algebraMap' (ZMod 2) (A := AdjoinRoot (modulusPoly p)) 2
  have hX : bytePoly 0x02 = X := by simp [bytePoly, Finset.sum_range_succ]
  have hroot : residue p 0x02 = AdjoinRoot.root (modulusPoly p) := by
    rw [residue, hX, AdjoinRoot.mk_X]
  have hid : iterateFrobenius (AdjoinRoot (modulusPoly p)) 2 k = RingHom.id _ := by
    apply AdjoinRoot.ringHom_ext
    · exact Subsingleton.elim _ _
    · rw [iterateFrobenius_def, ← hroot, ← residue_squared, h, RingHom.id_apply]
  exact (iterateFrobenius_def 2 k z).symm.trans (DFunLike.congr_fun hid z)

/-- Where squaring k times is the identity and 254 is coprime to 2^k - 1, gfInv is a bijection. -/
theorem bijective_gfInv_of_squared {k : Nat} (hn : 1 < 2 ^ k - 1) (hk : Nat.Coprime 254 (2 ^ k - 1))
    (h : squared p k 0x02 = 0x02) : Function.Bijective fun x => gfInv x p := by
  obtain ⟨m, hm⟩ := exists_pow_pow_eq_self hk hn fun z : AdjoinRoot (modulusPoly p) => by
    rw [Nat.sub_add_cancel Nat.one_le_two_pow, pow_two_pow_eq_self h]
  refine Function.Injective.bijective_of_finite fun a b hab => residue_injective p ?_
  calc residue p a = residue p (gfInv a p) ^ m := by rw [residue_gfInv, hm]
    _ = residue p (gfInv b p) ^ m := by rw [show gfInv a p = gfInv b p from hab]
    _ = residue p b := by rw [residue_gfInv, hm]

/-- Where gfInv inverts every non-zero byte, it is a bijection. -/
theorem bijective_gfInv_of_gfMul_gfInv (h : ∀ a : Byte, a ≠ 0 → gfMul a (gfInv a p) p = 1) :
    Function.Bijective fun x => gfInv x p :=
  Function.Involutive.bijective (gfInv_gfInv_of_irreducible (irreducible_of_gfMul_gfInv h))

end

/-- The nine polynomials of R77 are valid, and each of their rings has a nilpotent element: M(p) has
a square factor. -/
theorem nineOpenPolys_nilpotent :
    ∀ p ∈ nineOpenPolys, polyValid p = true ∧ ∃ a : Byte, a ≠ 0 ∧ gfMul a a p = 0 := by
  decide +kernel

/-- Under every other valid polynomial the irreducible factors of M(p) are distinct, of degrees that all
divide 24 (8, 6 + 2, 4 + 4) or all divide 15 (5 + 3). -/
theorem squared_of_notMem_nineOpenPolys :
    ∀ p : Byte, polyValid p = true → p ∉ nineOpenPolys →
      squared p 24 0x02 = 0x02 ∨ squared p 15 0x02 = 0x02 := by
  decide +kernel

/-- Under a valid polynomial gfInv is a bijection exactly when it is none of the nine. -/
theorem bijective_gfInv_iff {p : Byte} (hp : PolyValid p) :
    (Function.Bijective fun x => gfInv x p) ↔ p ∉ nineOpenPolys := by
  constructor
  · intro hb hmem
    obtain ⟨-, a, ha, hsq⟩ := nineOpenPolys_nilpotent p hmem
    exact not_bijective_gfInv_of_nilpotent ha hsq hb
  · intro hmem
    rcases squared_of_notMem_nineOpenPolys p ((polyValid_iff p).mpr hp) hmem with h | h
    · exact bijective_gfInv_of_squared (by norm_num) (by norm_num) h
    · exact bijective_gfInv_of_squared (by norm_num) (by norm_num) h

/-- Settles O24: the S-box is a bijection exactly when gfInv is, which is exactly outside the nine. -/
theorem sBoxBijectionByPolynomial : Obligations.SBoxBijectionByPolynomial :=
  ⟨fun p hp => (bijective_lookup_makeSBox_iff p).trans (bijective_gfInv_iff hp),
    fun p hmem => (polyValid_iff p).mp (nineOpenPolys_nilpotent p hmem).1,
    bijective_lookup_makeSBox_iff,
    fun p h => (bijective_lookup_makeSBox_iff p).mpr (bijective_gfInv_of_gfMul_gfInv h)⟩

end Sys2Proof.Machine

/-! ## Proofs of the statements of 41_rijndael.md

The round functions are described byte by byte, a byte's index written `4c + r` for column c and row r
(20_memory.md R34); two vectors are equal when all those bytes are. MixColumns is a statement about the
ring GF(2)[x]/(M(p)). The block operations are their sequences of round vectors. -/

namespace Sys2Proof.Machine

open Claims Polynomial

/-! ### Byte vectors by their entries -/

section
variable {s t k table : ByteVec} {j : Nat}

theorem byteVec_ext (hl : s.length = t.length) (h : ∀ j < s.length, byteAt s j = byteAt t j) :
    s = t := by
  refine List.ext_getElem hl fun j hs ht => ?_
  rw [← byteAt_eq_getElem hs, ← byteAt_eq_getElem ht, h j hs]

/-- Vectors of whole columns are equal when every row of every column is. -/
theorem byteVec_ext_columns (hl : s.length = t.length) (h4 : s.length % 4 = 0)
    (h : ∀ c r, 4 * c + 4 ≤ s.length → r < 4 → byteAt s (4 * c + r) = byteAt t (4 * c + r)) :
    s = t := by
  refine byteVec_ext hl fun j hj => ?_
  have := h (j / 4) (j % 4) (by omega) (by omega)
  rwa [Nat.div_add_mod] at this

theorem byteVec_ext_block {b : Size} (hs : s.length = b.bytes) (ht : t.length = b.bytes)
    (h : ∀ c r, c < b.columns → r < 4 → byteAt s (4 * c + r) = byteAt t (4 * c + r)) : s = t := by
  have hb := b.bytes_eq_four_mul_columns
  exact byteVec_ext_columns (hs.trans ht.symm) (by omega) fun c r hc hr => h c r (by omega) hr

theorem byteAt_addRoundKey (hj : j < s.length) :
    byteAt (addRoundKey s k) j = byteAt s j ^^^ byteAt k (j % k.length) :=
  byteAt_map_range _ hj

theorem byteAt_subBytes (hj : j < s.length) :
    byteAt (subBytes table s) j = lookup table (byteAt s j) := by
  rw [byteAt_eq_getElem hj, byteAt_eq_getElem (by simpa using hj)]
  simp [subBytes]

/-- AddRoundKey undoes itself, since each byte meets the same round key byte twice (R93). -/
@[simp] theorem addRoundKey_addRoundKey (s k : ByteVec) : addRoundKey (addRoundKey s k) k = s := by
  refine byteVec_ext (by simp) fun j hj => ?_
  have hs : j < s.length := by simpa using hj
  rw [byteAt_addRoundKey (by simpa using hs), byteAt_addRoundKey hs, BitVec.xor_assoc,
    BitVec.xor_self, BitVec.xor_zero]

end

/-! ### The S-box (R75, R76) -/

theorem getLsbD_rotl8 (b : Byte) {n i : Nat} (hn : n < 8) (hi : i < 8) :
    (rotl8 b n).getLsbD i = b.getLsbD ((i + (8 - n)) % 8) := by
  rcases Nat.lt_or_ge i n with h | h
  · rw [Nat.mod_eq_of_lt (by omega)]
    simp [rotl8, h, Nat.add_comm]
  · have hmod : (i + (8 - n)) % 8 = i - n := by omega
    have hout : b.getLsbD (8 - n + i) = false := BitVec.getLsbD_of_ge b _ (by omega)
    rw [hmod, rotl8, BitVec.getLsbD_or, BitVec.getLsbD_ushiftRight, hout, BitVec.getLsbD_shiftLeft]
    simp [hi, h]

/-- Settles O22: the entries are `affine (gfInv x p)`, and a rotation moves the bits cyclically. -/
theorem sBoxEntriesAreAffineInverses : Obligations.SBoxEntriesAreAffineInverses := by
  intro p
  have h0 : affine 0#8 = 0x63 := by decide
  refine ⟨makeSBox_length p, ?_, fun x i hi => ?_⟩
  · have := lookup_makeSBox p 0#8
    rwa [gfInv_zero, h0] at this
  · rw [lookup_makeSBox]
    simp [affine, getLsbD_rotl8 _ _ hi]

/-! ### The inverse S-box (R77) -/

section
variable {sbox : ByteVec} (p : Byte)

/-- The inverse S-box of a bijection reads the index of the first entry with the value. -/
theorem lookup_makeInvSBox_of_bijective (hl : sbox.length = 256)
    (hb : Function.Bijective (lookup sbox)) (y : Byte) :
    lookup (makeInvSBox p sbox) y = BitVec.ofNat 8 (sbox.idxOf y) := by
  rw [makeInvSBox, if_pos ((isBijection_iff_bijective hl).mpr hb), lookup,
    byteAt_map_range _ y.isLt, BitVec.ofNat_toNat, BitVec.setWidth_eq]

theorem lookup_makeInvSBox_of_not_bijective (hl : sbox.length = 256)
    (hb : ¬ Function.Bijective (lookup sbox)) (y : Byte) :
    lookup (makeInvSBox p sbox) y = Config.invSboxFill p y := by
  rw [makeInvSBox, if_neg (fun h => hb ((isBijection_iff_bijective hl).mp h)), lookup,
    byteAt_map_range _ y.isLt, BitVec.ofNat_toNat, BitVec.setWidth_eq]

theorem lookup_lookup_makeInvSBox (hl : sbox.length = 256)
    (hb : Function.Bijective (lookup sbox)) (y : Byte) :
    lookup sbox (lookup (makeInvSBox p sbox) y) = y := by
  have hmem : y ∈ sbox := (isBijection_iff sbox).mp ((isBijection_iff_bijective hl).mpr hb) y
  have hi : sbox.idxOf y < sbox.length := List.idxOf_lt_length_of_mem hmem
  rw [lookup_makeInvSBox_of_bijective p hl hb, lookup, BitVec.toNat_ofNat,
    Nat.mod_eq_of_lt (by omega), byteAt_eq_getElem hi, List.getElem_idxOf]

theorem lookup_makeInvSBox_lookup (hl : sbox.length = 256)
    (hb : Function.Bijective (lookup sbox)) (x : Byte) :
    lookup (makeInvSBox p sbox) (lookup sbox x) = x :=
  hb.injective (lookup_lookup_makeInvSBox p hl hb _)

/-- InvSubBytes with the inverse table of a bijection undoes SubBytes (R93). -/
theorem subBytes_makeInvSBox_subBytes (hl : sbox.length = 256)
    (hb : Function.Bijective (lookup sbox)) (s : ByteVec) :
    subBytes (makeInvSBox p sbox) (subBytes sbox s) = s := by
  rw [subBytes, subBytes, List.map_map]
  exact List.map_id'' (lookup_makeInvSBox_lookup p hl hb) s

end

/-- Settles O23: a value's index in a bijection is where the table reads it; other tables are OPEN. -/
theorem invSBoxInvertsOrIsOpen : Obligations.InvSBoxInvertsOrIsOpen := fun p _ hl =>
  ⟨fun hb x => ⟨lookup_makeInvSBox_lookup p hl hb x, lookup_lookup_makeInvSBox p hl hb x⟩,
    fun hb => lookup_makeInvSBox_of_not_bijective p hl hb⟩

/-! ### What the key schedule reads of the key (R79, R95) -/

theorem byteAt_take (v : ByteVec) {n j : Nat} (hj : j < n) : byteAt (v.take n) j = byteAt v j := by
  simp [byteAt, hj]

/-- A key at least as long as the block is tiled from its first bytes alone. -/
theorem tileKey_congr_of_take {b : Size} {x y : ByteVec} (hx : b.bytes ≤ x.length)
    (hy : b.bytes ≤ y.length) (h : x.take b.bytes = y.take b.bytes) : tileKey b x = tileKey b y := by
  refine List.map_congr_left fun j hj => ?_
  have hj : j < b.bytes := List.mem_range.mp hj
  rw [Nat.mod_eq_of_lt (hj.trans_le hx), Nat.mod_eq_of_lt (hj.trans_le hy), ← byteAt_take x hj, h,
    byteAt_take y hj]

/-- The number of rounds says where the schedule ends, not what its round keys are. -/
theorem roundKeysFrom_getD_congr {sbox prev : ByteVec} {b : Size} {i n m j : Nat} (hn : j ≤ n)
    (hm : j ≤ m) :
    (roundKeysFrom sbox b n i prev).getD j [] = (roundKeysFrom sbox b m i prev).getD j [] := by
  induction j with
  | zero => rw [roundKeysFrom_getD_zero, roundKeysFrom_getD_zero]
  | succ j ih =>
    rw [roundKeysFrom_getD_succ hn, roundKeysFrom_getD_succ hm, ih (by omega) (by omega)]

/-- Settles O26: the schedule reads the key in `tileKey` only, and its later rounds only extend it. -/
theorem keyScheduleIgnoresKeyBeyondBlock : Obligations.KeyScheduleIgnoresKeyBeyondBlock := by
  refine ⟨fun sbox b k x y hbk hx hy h => ?_, fun sbox b k l x y hr ht => ?_,
    fun sbox x y hx hy h i hi => ?_⟩
  · rw [keyExpand, keyExpand, tileKey_congr_of_take (by omega) (by omega) h]
  · rw [keyExpand, keyExpand, hr, ht]
  · have ht : tileKey .b16 x = tileKey .b16 y :=
      tileKey_congr_of_take (by simp [Size.bytes, hx]) (by simp [Size.bytes, hy]) h
    have h12 : i ≤ roundCount .b16 .b24 := hi
    have h14 : i ≤ roundCount .b16 .b32 := hi.trans (by decide)
    rw [keyExpand, keyExpand, ht, roundKeysFrom_getD_congr h12 h14]

/-! ### ShiftRows and InvShiftRows (R85, R86, R89) -/

section
variable {b : Size} {s : ByteVec} {c r : Nat}

theorem byteAt_shiftRows (hc : c < b.columns) (hr : r < 4) :
    byteAt (shiftRows b s) (4 * c + r) =
      byteAt s (4 * ((c + shiftOffset b r) % b.columns) + r) := by
  have hb := b.bytes_eq_four_mul_columns
  rw [shiftRows, byteAt_map_range _ (by omega), show (4 * c + r) / 4 = c by omega,
    show (4 * c + r) % 4 = r by omega]

theorem byteAt_invShiftRows (hc : c < b.columns) (hr : r < 4) :
    byteAt (invShiftRows b s) (4 * c + r) =
      byteAt s (4 * ((c + b.columns - shiftOffset b r) % b.columns) + r) := by
  have hb := b.bytes_eq_four_mul_columns
  rw [invShiftRows, byteAt_map_range _ (by omega), show (4 * c + r) / 4 = c by omega,
    show (4 * c + r) % 4 = r by omega]

theorem shiftOffset_eq (b : Size) (r : Nat) :
    shiftOffset b r = [0, 1, if b = .b32 then 3 else 2, if b = .b32 then 4 else 3].getD r 0 := by
  cases b <;> rfl

theorem shiftOffset_lt_columns (b : Size) (hr : r < 4) : shiftOffset b r < b.columns := by
  interval_cases r <;> cases b <;> decide

theorem Size.columns_pos (b : Size) : 0 < b.columns := by
  cases b <;> decide

end

/-- Moving `o` columns on and then `o` back, modulo the number of columns, is staying. -/
theorem add_mod_sub_mod {n o c : Nat} (ho : o ≤ n) (hc : c < n) : ((c + o) % n + n - o) % n = c := by
  rw [Nat.add_sub_assoc ho, Nat.mod_add_mod, Nat.add_assoc, Nat.add_sub_cancel' ho,
    Nat.add_mod_right, Nat.mod_eq_of_lt hc]

theorem sub_mod_add_mod {n o c : Nat} (ho : o ≤ n) (hc : c < n) : ((c + n - o) % n + o) % n = c := by
  rw [Nat.mod_add_mod, Nat.sub_add_cancel (by omega), Nat.add_mod_right, Nat.mod_eq_of_lt hc]

/-- The column `(c - o) mod n` as the claims write it, over the integers. -/
theorem toNat_sub_emod {n o c : Nat} (ho : o ≤ n) :
    (((c : Int) - o) % n).toNat = (c + n - o) % n := by
  rw [← Int.add_emod_right, show (c : Int) - o + n = ((c + n - o : Nat) : Int) by omega,
    ← Int.natCast_emod, Int.toNat_natCast]

section
variable {b : Size} {s : ByteVec}

/-- InvShiftRows undoes ShiftRows (R93). -/
theorem invShiftRows_shiftRows (hs : s.length = b.bytes) : invShiftRows b (shiftRows b s) = s := by
  refine byteVec_ext_block (invShiftRows_length b _) hs fun c r hc hr => ?_
  rw [byteAt_invShiftRows hc hr, byteAt_shiftRows (Nat.mod_lt _ b.columns_pos) hr,
    sub_mod_add_mod (shiftOffset_lt_columns b hr).le hc]

/-- ShiftRows undoes InvShiftRows (R93). -/
theorem shiftRows_invShiftRows (hs : s.length = b.bytes) : shiftRows b (invShiftRows b s) = s := by
  refine byteVec_ext_block (shiftRows_length b _) hs fun c r hc hr => ?_
  rw [byteAt_shiftRows hc hr, byteAt_invShiftRows (Nat.mod_lt _ b.columns_pos) hr,
    add_mod_sub_mod (shiftOffset_lt_columns b hr).le hc]

/-- InvSubBytes works on bytes and InvShiftRows on their places, so they commute (R93). -/
theorem subBytes_invShiftRows (table : ByteVec) (hs : s.length = b.bytes) :
    subBytes table (invShiftRows b s) = invShiftRows b (subBytes table s) := by
  have hb := b.bytes_eq_four_mul_columns
  refine byteVec_ext_block (by simp) (invShiftRows_length b _) fun c r hc hr => ?_
  have hsource := Nat.mod_lt (c + b.columns - shiftOffset b r) b.columns_pos
  rw [byteAt_subBytes (by simp; omega), byteAt_invShiftRows hc hr, byteAt_invShiftRows hc hr,
    byteAt_subBytes (by omega)]

end

/-- Settles O27: the model's column arithmetic is that of R86 and R89. -/
theorem shiftRowsMovesColumns : Obligations.ShiftRowsMovesColumns := by
  refine ⟨fun b s c r hs hc hr off hoff => ?_, by decide⟩
  obtain rfl : off = shiftOffset b r := hoff.trans (shiftOffset_eq b r).symm
  have ho := (shiftOffset_lt_columns b hr).le
  refine ⟨byteAt_shiftRows hc hr, ?_, ?_⟩
  · rw [byteAt_invShiftRows (Nat.mod_lt _ b.columns_pos) hr, add_mod_sub_mod ho hc]
  · rw [byteAt_invShiftRows hc hr, toNat_sub_emod ho]

/-- Settles O29: each inverse undoes its round function byte by byte; a table that is undone on
one-byte vectors is injective. -/
theorem roundFunctionsUndone : Obligations.RoundFunctionsUndone := by
  refine ⟨fun b s hs => ⟨invShiftRows_shiftRows hs, shiftRows_invShiftRows hs⟩,
    fun s k _ => addRoundKey_addRoundKey s k,
    fun p sbox hl => ⟨fun h => ?_, fun hb => subBytes_makeInvSBox_subBytes p hl hb⟩,
    fun b table s hs => subBytes_invShiftRows table hs⟩
  have hleft : Function.LeftInverse (lookup (makeInvSBox p sbox)) (lookup sbox) :=
    fun x => List.singleton_inj.mp (h [x])
  exact hleft.injective.bijective_of_finite

/-! ### MixColumns and InvMixColumns (R87, R91) -/

/-- Row `i` of column `c`, the row taken modulo 4. -/
def columnByte (s : ByteVec) (c i : Nat) : Byte := byteAt s (4 * c + i % 4)

section
variable {s : ByteVec} {c : Nat}

theorem columnByte_of_lt {r : Nat} (hr : r < 4) : columnByte s c r = byteAt s (4 * c + r) := by
  rw [columnByte, Nat.mod_eq_of_lt hr]

theorem columnByte_add_four (i : Nat) : columnByte s c (i + 4) = columnByte s c i := by
  rw [columnByte, columnByte, Nat.add_mod_right]

/-- The product with the fixed polynomial, written out for one row (R87). -/
theorem columnByte_mixWith (coef : ByteVec) (p : Byte) (hc : 4 * c + 4 ≤ s.length) (i : Nat) :
    columnByte (mixWith coef p s) c i =
      gfMul (byteAt coef 3) (columnByte s c i) p ^^^
        gfMul (byteAt coef 0) (columnByte s c (i + 1)) p ^^^
        gfMul (byteAt coef 1) (columnByte s c (i + 2)) p ^^^
        gfMul (byteAt coef 2) (columnByte s c (i + 3)) p := by
  have hr : i % 4 < 4 := Nat.mod_lt _ (by decide)
  simp only [columnByte, ← Nat.mod_add_mod i 4]
  generalize i % 4 = r at hr ⊢
  rw [mixWith, byteAt_map_range _ (by omega), show (4 * c + r) / 4 = c by omega,
    show (4 * c + r) % 4 = r by omega]
  interval_cases r <;> simp [List.range_succ, gfAdd] <;> ac_rfl

theorem columnByte_mixColumns (p : Byte) (hc : 4 * c + 4 ≤ s.length) (i : Nat) :
    columnByte (mixColumns p s) c i =
      gfMul 0x02 (columnByte s c i) p ^^^ gfMul 0x03 (columnByte s c (i + 1)) p ^^^
        gfMul 0x01 (columnByte s c (i + 2)) p ^^^ gfMul 0x01 (columnByte s c (i + 3)) p :=
  columnByte_mixWith _ p hc i

theorem columnByte_invMixColumns (p : Byte) (hc : 4 * c + 4 ≤ s.length) (i : Nat) :
    columnByte (invMixColumns p s) c i =
      gfMul 0x0e (columnByte s c i) p ^^^ gfMul 0x0b (columnByte s c (i + 1)) p ^^^
        gfMul 0x0d (columnByte s c (i + 2)) p ^^^ gfMul 0x09 (columnByte s c (i + 3)) p :=
  columnByte_mixWith _ p hc i

end

/-- Settles O28: the row of the claim is `columnByte`. -/
theorem mixColumnsWrittenOut : Obligations.MixColumnsWrittenOut := by
  intro p s c r a hc hr ha
  obtain rfl : a = columnByte s c := funext ha
  rw [← columnByte_of_lt hr, ← columnByte_of_lt hr]
  exact ⟨columnByte_mixColumns p hc r, columnByte_invMixColumns p hc r⟩

theorem residue_xor (p a b : Byte) : residue p (a ^^^ b) = residue p a + residue p b :=
  residue_gfAdd p a b

theorem two_eq_zero_adjoinRoot (p : Byte) : (2 : AdjoinRoot (modulusPoly p)) = 0 := by
  simpa [one_add_one_eq_two] using (residue_gfAdd p 1#8 1#8).symm

/-- The class of a byte, bit by bit, in powers of the class of x, which is that of 02. -/
theorem residue_eq_sum (p b : Byte) :
    residue p b = ∑ i ∈ Finset.range 8, if b.getLsbD i = true then residue p 0x02 ^ i else 0 := by
  have hX : bytePoly 0x02 = X := by simp [bytePoly, Finset.sum_range_succ]
  rw [residue, residue, hX, bytePoly, map_sum]
  refine Finset.sum_congr rfl fun i _ => ?_
  split
  · exact map_pow _ _ _
  · exact map_zero _

/-- The coefficients of R87 and R91 other than 02. -/
theorem residue_coefficients (p : Byte) :
    residue p 0x01 = 1 ∧
    residue p 0x03 = 1 + residue p 0x02 ∧
    residue p 0x09 = 1 + residue p 0x02 ^ 3 ∧
    residue p 0x0b = 1 + residue p 0x02 + residue p 0x02 ^ 3 ∧
    residue p 0x0d = 1 + residue p 0x02 ^ 2 + residue p 0x02 ^ 3 ∧
    residue p 0x0e = residue p 0x02 + residue p 0x02 ^ 2 + residue p 0x02 ^ 3 := by
  rw [residue_eq_sum p 0x01, residue_eq_sum p 0x03, residue_eq_sum p 0x09, residue_eq_sum p 0x0b,
    residue_eq_sum p 0x0d, residue_eq_sum p 0x0e]
  simp [Finset.sum_range_succ]

/-- The two fixed polynomials are inverse modulo x^4 + 1 over every ring with 2 = 0, whatever the
modulus: row 0 of their product applied to a column is the column's row 0. -/
theorem invMix_mix_row {R : Type*} [CommRing R] (h2 : (2 : R) = 0) (x a b c d : R) :
    (x + x ^ 2 + x ^ 3) * (x * a + (1 + x) * b + c + d) +
      (1 + x + x ^ 3) * (x * b + (1 + x) * c + d + a) +
      (1 + x ^ 2 + x ^ 3) * (x * c + (1 + x) * d + a + b) +
      (1 + x ^ 3) * (x * d + (1 + x) * a + b + c) = a := by
  linear_combination ((x ^ 4 + 2 * x ^ 3 + x ^ 2 + x + 1) * a +
    (x ^ 4 + 2 * x ^ 3 + 2 * x ^ 2 + x + 1) * b +
    (x ^ 4 + 2 * x ^ 3 + x ^ 2 + 2 * x + 1) * (c + d)) * h2

/-- InvMixColumns undoes MixColumns, under every polynomial (R93). -/
theorem invMixColumns_mixColumns (p : Byte) {s : ByteVec} (hs : s.length % 4 = 0) :
    invMixColumns p (mixColumns p s) = s := by
  refine byteVec_ext_columns (by simp) (by simpa using hs) fun c r hc hr => ?_
  have hc : 4 * c + 4 ≤ s.length := by simpa using hc
  obtain ⟨h01, h03, h09, h0b, h0d, h0e⟩ := residue_coefficients p
  rw [← columnByte_of_lt hr, ← columnByte_of_lt hr, columnByte_invMixColumns p (by simpa using hc)]
  apply residue_injective p
  simp only [columnByte_mixColumns p hc, residue_xor, residue_gfMul, h01, h03, h09, h0b, h0d, h0e,
    one_mul, Nat.add_assoc, Nat.reduceAdd, columnByte_add_four]
  exact invMix_mix_row (two_eq_zero_adjoinRoot p) _ _ _ _ _

/-- Settles O30: the validity of the polynomial is not needed. -/
theorem invMixColumnsUndoesMixColumns : Obligations.InvMixColumnsUndoesMixColumns :=
  fun p _ _ hs => invMixColumns_mixColumns p hs

/-! ### The sequences of rounds (R88, R92) -/

section
variable (r : CipherRegs) (s v : ByteVec) {n : Nat}

theorem encryptRound_of_ne (h : n ≠ r.nr) :
    encryptRound r s n =
      addRoundKey (mixColumns r.poly (shiftRows r.bsz (subBytes r.sbox s))) (r.roundKey n) := by
  rw [encryptRound, if_pos h]

theorem encryptRound_nr :
    encryptRound r s r.nr = addRoundKey (shiftRows r.bsz (subBytes r.sbox s)) (r.roundKey r.nr) := by
  rw [encryptRound, if_neg (not_not_intro rfl)]

theorem decryptRound_of_ne (h : n ≠ 0) :
    decryptRound r s n = invMixColumns r.poly
      (addRoundKey (subBytes r.invSbox (invShiftRows r.bsz s)) (r.roundKey n)) := by
  rw [decryptRound, if_pos h]

theorem decryptRound_zero :
    decryptRound r s 0 = addRoundKey (subBytes r.invSbox (invShiftRows r.bsz s)) (r.roundKey 0) :=
  rfl

/-- BlockEncrypt's vector after round `n`. -/
def encryptState (n : Nat) : ByteVec :=
  (List.range' 1 n).foldl (encryptRound r) (addRoundKey v (r.roundKey 0))

/-- BlockDecrypt's vector after the rounds from NR - 1 down to `n`. -/
def decryptState (n : Nat) : ByteVec :=
  (List.range' n (r.nr - n)).reverse.foldl (decryptRound r) (addRoundKey v (r.roundKey r.nr))

theorem encryptState_zero : encryptState r v 0 = addRoundKey v (r.roundKey 0) := rfl

theorem encryptState_succ (n : Nat) :
    encryptState r v (n + 1) = encryptRound r (encryptState r v n) (n + 1) := by
  rw [encryptState, List.range'_1_concat, List.foldl_append, encryptState, Nat.add_comm 1 n]
  rfl

theorem blockEncrypt_eq_encryptState : blockEncrypt r v = encryptState r v r.nr := rfl

theorem decryptState_nr : decryptState r v r.nr = addRoundKey v (r.roundKey r.nr) := by
  simp [decryptState]

theorem decryptState_of_lt (h : n < r.nr) :
    decryptState r v n = decryptRound r (decryptState r v (n + 1)) n := by
  rw [decryptState, show r.nr - n = r.nr - (n + 1) + 1 by omega, List.range'_succ,
    List.reverse_cons, List.foldl_append, decryptState]
  rfl

theorem blockDecrypt_eq_decryptState : blockDecrypt r v = decryptState r v 0 := by
  rw [blockDecrypt, List.range_eq_range', decryptState, Nat.sub_zero]

/-- The last round of BlockEncrypt (R88). -/
theorem blockEncrypt_eq_last_round :
    blockEncrypt r v = addRoundKey
      (shiftRows r.bsz (subBytes r.sbox (encryptState r v (r.nr - 1)))) (r.roundKey r.nr) := by
  have h := encryptState_succ r v (r.nr - 1)
  rwa [Nat.sub_add_cancel r.nr_pos, encryptRound_nr] at h

end

/-- Settles O50: the sequences are `encryptState` and `decryptState`. -/
theorem blockOperationsFollowTheirRounds : Obligations.BlockOperationsFollowTheirRounds := by
  refine ⟨fun v k => ⟨addRoundKey_length v k, fun j => byteAt_addRoundKey⟩,
    fun table v => ⟨subBytes_length table v, fun j => byteAt_subBytes⟩,
    fun r v => ⟨encryptState r v, rfl, fun n h1 hn => ?_, blockEncrypt_eq_last_round r v, rfl⟩,
    fun r v => ⟨decryptState r v, decryptState_nr r v, fun n h1 hn => ?_, ?_,
      blockDecrypt_eq_decryptState r v⟩⟩
  · obtain ⟨n, rfl⟩ := Nat.exists_eq_add_of_le' h1
    exact (encryptState_succ r v n).trans (encryptRound_of_ne r _ hn.ne)
  · exact (decryptState_of_lt r v hn).trans (decryptRound_of_ne r _ (by omega))
  · exact decryptState_of_lt r v r.nr_pos

/-! ### BlockDecrypt and BlockEncrypt (R93) -/

section
variable {r : CipherRegs} {v w : ByteVec}

theorem sbox_length_of_inv (hr : r.Inv) : r.sbox.length = 256 := by
  rw [hr.sboxEq, makeSBox_length]

theorem encryptState_length (hv : v.length = r.bsz.bytes) (n : Nat) :
    (encryptState r v n).length = r.bsz.bytes := by
  cases n with
  | zero => rw [encryptState_zero, addRoundKey_length, hv]
  | succ n => rw [encryptState_succ, encryptRound_length]

/-- With a bijective S-box, InvShiftRows and InvSubBytes undo SubBytes and ShiftRows. -/
theorem subBytes_invShiftRows_shiftRows_subBytes (hr : r.Inv)
    (hb : Function.Bijective (lookup r.sbox)) (hv : v.length = r.bsz.bytes) :
    subBytes r.invSbox (invShiftRows r.bsz (shiftRows r.bsz (subBytes r.sbox v))) = v := by
  rw [invShiftRows_shiftRows (by simpa using hv), hr.invSboxEq,
    subBytes_makeInvSBox_subBytes _ (sbox_length_of_inv hr) hb]

/-- Decryption walks back through the vectors of encryption: before its round n it holds what
encryption's round n + 1 held after ShiftRows. -/
theorem decryptState_blockEncrypt (hr : r.Inv) (hb : Function.Bijective (lookup r.sbox))
    (hv : v.length = r.bsz.bytes) {n : Nat} (hn : n ≤ r.nr - 1) :
    decryptState r (blockEncrypt r v) (n + 1) =
      shiftRows r.bsz (subBytes r.sbox (encryptState r v n)) := by
  induction hn using Nat.decreasingInduction with
  | self =>
    rw [Nat.sub_add_cancel r.nr_pos, decryptState_nr, blockEncrypt_eq_last_round,
      addRoundKey_addRoundKey]
  | of_succ n hn ih =>
    have hlen : (shiftRows r.bsz (subBytes r.sbox (encryptState r v n))).length % 4 = 0 := by
      simp [r.bsz.bytes_eq_four_mul_columns]
    rw [decryptState_of_lt _ _ (by omega), ih, decryptRound_of_ne _ _ (by omega),
      subBytes_invShiftRows_shiftRows_subBytes hr hb (encryptState_length hv _), encryptState_succ,
      encryptRound_of_ne _ _ (by omega), addRoundKey_addRoundKey, invMixColumns_mixColumns _ hlen]

theorem blockDecrypt_blockEncrypt (hr : r.Inv) (hb : Function.Bijective (lookup r.sbox))
    (hv : v.length = r.bsz.bytes) : blockDecrypt r (blockEncrypt r v) = v := by
  rw [blockDecrypt_eq_decryptState, decryptState_of_lt _ _ r.nr_pos,
    decryptState_blockEncrypt hr hb hv (Nat.zero_le _), decryptRound_zero,
    subBytes_invShiftRows_shiftRows_subBytes hr hb (encryptState_length hv 0), encryptState_zero,
    addRoundKey_addRoundKey]

/-- BlockEncrypt sees its first vector only through SubBytes. -/
theorem blockEncrypt_congr_subBytes
    (h : subBytes r.sbox (encryptState r v 0) = subBytes r.sbox (encryptState r w 0)) :
    blockEncrypt r v = blockEncrypt r w := by
  have hstate : ∀ n, encryptState r v (n + 1) = encryptState r w (n + 1) := by
    intro n
    induction n with
    | zero => rw [encryptState_succ, encryptState_succ, encryptRound, h, encryptRound]
    | succ n ih => rw [encryptState_succ, ih, ← encryptState_succ]
  have := hstate (r.nr - 1)
  rwa [Nat.sub_add_cancel r.nr_pos] at this

/-- Two bytes with one S-box value give two blocks with one BlockEncrypt: all bytes equal to the one or
to the other after the first AddRoundKey. -/
theorem exists_blockEncrypt_eq (hb : ¬ Function.Bijective (lookup r.sbox)) :
    ∃ v w : ByteVec, v.length = r.bsz.bytes ∧ w.length = r.bsz.bytes ∧ v ≠ w ∧
      blockEncrypt r v = blockEncrypt r w := by
  have hni : ¬ Function.Injective (lookup r.sbox) := fun h => hb h.bijective_of_finite
  obtain ⟨x, y, hxy, hne⟩ := Function.not_injective_iff.mp hni
  refine ⟨addRoundKey (.replicate r.bsz.bytes x) (r.roundKey 0),
    addRoundKey (.replicate r.bsz.bytes y) (r.roundKey 0), by simp, by simp, fun h => hne ?_,
    blockEncrypt_congr_subBytes ?_⟩
  · have h := congrArg (addRoundKey · (r.roundKey 0)) h
    have hpos := r.bsz.columns_pos
    have hb := r.bsz.bytes_eq_four_mul_columns
    simp only [addRoundKey_addRoundKey] at h
    exact List.replicate_right_injective (by omega) h
  · simp [encryptState_zero, subBytes, hxy]

end

/-- Settles O31: decryption walks back through encryption's vectors; without a bijection encryption is
not injective, so nothing can undo it. -/
theorem blockDecryptUndoesBlockEncrypt : Obligations.BlockDecryptUndoesBlockEncrypt := by
  refine fun r hr => ⟨⟨fun hundo => ?_, fun hb v hv => blockDecrypt_blockEncrypt hr hb hv⟩,
    exists_blockEncrypt_eq⟩
  by_contra hb
  obtain ⟨v, w, hv, hw, hne, he⟩ := exists_blockEncrypt_eq hb
  exact hne (by rw [← hundo v hv, he, hundo w hw])

end Sys2Proof.Machine

/-! ## Proofs of the statements of 42_config.md

Each check of a configuration command is one equation of `exec`, its answer written as `answered`;
a step on a presented word is that equation at the state that accepted the command. -/

namespace Sys2Proof

theorem FormatD.mem_needs_config {i : Instr} (hi : FormatD i) :
    i ∈ [.loadKey, .loadIv, .encrypt, .decrypt] := by
  cases hi <;> simp

theorem FormatD.opcode_mem {i : Instr} (hi : FormatD i) :
    i.opcode ∈ [0x5#4, 0x6#4, 0x7#4, 0x8#4] := by
  cases hi <;> simp [Instr.opcode]

end Sys2Proof

namespace Sys2Proof.Machine

open Claims

/-! ### The checks of CONFIG in their order (R100, 60_exceptions.md R127) -/

theorem exists_size_of_mem {n : Nat} (h : n ∈ [16, 24, 32]) : ∃ b : Size, n = b.bytes := by
  simp only [← sizeOfCount_eq_some_iff]
  exact Option.ne_none_iff_exists'.mp fun hn => sizeOfCount_eq_none_iff.mp hn h

theorem exists_mode_of_le {n : Nat} (h : n ≤ 3) : ∃ m : Mode, n = m.code.toNat := by
  simp only [← modeOfField_eq_some_iff]
  exact Option.ne_none_iff_exists'.mp fun hn => (modeOfField_eq_none_iff.mp hn).not_ge h

theorem Mode.code_toNat_eq_zero_iff {m : Mode} : m.code.toNat = 0 ↔ m = .ecb := by
  cases m <;> decide

section
variable {bsz ksz n : Nat} {b k : Size} {p : Byte} {m : Mode} {o : Operands}

theorem checkConfig_errBlockSize (hb : bsz ∉ [16, 24, 32]) :
    checkConfig bsz ksz p n o = .error .errBlockSize := by
  simp [checkConfig, sizeOfCount_eq_none_iff.mpr hb]

theorem checkConfig_errKeySize (hk : ksz ∉ [16, 24, 32]) :
    checkConfig b.bytes ksz p n o = .error .errKeySize := by
  simp [checkConfig, sizeOfCount_eq_none_iff.mpr hk]

theorem checkConfig_errKey (hl : o.keyData.length ≠ k.bytes) :
    checkConfig b.bytes k.bytes p n o = .error .errKey := by
  simp [checkConfig, hl]

theorem checkConfig_errPoly (hl : o.keyData.length = k.bytes) (hp : ¬ PolyValid p) :
    checkConfig b.bytes k.bytes p n o = .error .errPoly := by
  simp [checkConfig, hl, mt (polyValid_iff p).mp hp]

theorem checkConfig_errMode (hl : o.keyData.length = k.bytes) (hp : PolyValid p) (hn : 3 < n) :
    checkConfig b.bytes k.bytes p n o = .error .errMode := by
  simp [checkConfig, hl, (polyValid_iff p).mpr hp, modeOfField_eq_none_iff.mpr hn]

theorem checkConfig_errIv (hl : o.keyData.length = k.bytes) (hp : PolyValid p) (hm : m ≠ .ecb)
    (hv : o.ivData.length ≠ b.bytes) :
    checkConfig b.bytes k.bytes p m.code.toNat o = .error .errIv := by
  simp [checkConfig, hl, (polyValid_iff p).mpr hp, hm, hv]

theorem checkConfig_ok (hl : o.keyData.length = k.bytes) (hp : PolyValid p)
    (hv : m = .ecb ∨ o.ivData.length = b.bytes) :
    checkConfig b.bytes k.bytes p m.code.toNat o = .ok (b, k, m) :=
  checkConfig_ok_iff.mpr ⟨rfl, rfl, hl, (polyValid_iff p).mpr hp, rfl, hv⟩

end

/-! ### What CONFIG, LOAD_KEY and LOAD_IV answer -/

section
variable {s : State} {r : CipherRegs} {b k : Size} {p : Byte} {m : Mode}

theorem exec_config_answered (hp : PolyValid p) (hl : s.operands.keyData.length = k.bytes)
    (hv : m = .ecb ∨ s.operands.ivData.length = b.bytes) :
    exec (.config b.bytes k.bytes p m.code.toNat) s = .next (answered s s.inputs
      (some (configured b k p m s.operands.keyData s.operands.ivData)) .ok []) :=
  exec_config_of_ok (checkConfig_ok hl hp hv)

theorem exec_loadKey_answered (h : s.regs = some r)
    (hl : s.operands.keyData.length = r.ksz.bytes) :
    exec .loadKey s =
      .next (answered s s.inputs (some (r.withKey s.operands.keyData)) .ok []) := by
  rw [exec_loadKey_of_regs h, if_pos hl]
  rfl

theorem exec_loadKey_errKey (h : s.regs = some r)
    (hl : s.operands.keyData.length ≠ r.ksz.bytes) :
    exec .loadKey s = .next (answered s s.inputs (some r) .errKey []) := by
  rw [exec_loadKey_of_regs h, if_neg hl, raise_eq_answered, h]

theorem exec_loadIv_of_ecb (h : s.regs = some r) (hm : r.mode = .ecb) :
    exec .loadIv s = .next (answered s s.inputs (some r) .ok []) := by
  rw [exec_loadIv_of_regs h, if_pos hm, ← h]
  rfl

theorem exec_loadIv_answered (h : s.regs = some r) (hm : r.mode ≠ .ecb)
    (hv : s.operands.ivData.length = r.bsz.bytes) :
    exec .loadIv s = .next (answered s s.inputs
      (some { r with iv := some s.operands.ivData }) .ok []) := by
  rw [exec_loadIv_of_regs h, if_neg hm, if_pos hv]
  rfl

theorem exec_loadIv_errIv (h : s.regs = some r) (hm : r.mode ≠ .ecb)
    (hv : s.operands.ivData.length ≠ r.bsz.bytes) :
    exec .loadIv s = .next (answered s s.inputs (some r) .errIv []) := by
  rw [exec_loadIv_of_regs h, if_neg hm, if_neg hv, raise_eq_answered, h]

end

/-! ### Steps on a presented word -/

section
variable {s : State} {c : Command} {rest : List HostEvent} {i : Instr}

section
variable (hi : FormatD i) (hs : s.inputs = .command c :: rest)
  (hopc : c.word.extractLsb' 28 4 = i.opcode)
include hi hs hopc

/-- A format D word with a non-zero Z answers ERR_ILLEGAL (30_encoding.md R52). -/
theorem step_formatD_of_fieldZ (hz : c.word.extractLsb' 0 28 ≠ 0) :
    step s = .next (answered s rest s.regs .errIllegal []) := by
  obtain ⟨x, hx⟩ := decode_error_of_fieldZ_formatD (hopc ▸ hi.opcode_mem) hz
  exact step_of_decode_error hs hx

theorem step_formatD (hz : c.word.extractLsb' 0 28 = 0) :
    step s = exec i (s.accept c rest) :=
  step_of_decode hs ((hi.decode_eq hopc).trans (decodeD_ok_iff.mpr ⟨hz, rfl⟩))

/-- A legal format D word answers ERR_NOT_CONFIGURED on an unconfigured core (10_state.md R10). -/
theorem step_formatD_of_unconfigured (hz : c.word.extractLsb' 0 28 = 0) (h : s.regs = none) :
    step s = .next (answered s rest none .errNotConfigured []) := by
  rw [step_formatD hi hs hopc hz,
    exec_of_unconfigured (s := s.accept c rest) h hi.mem_needs_config, raise_eq_answered,
    accept_regs, h]
  rfl

end

/-- A CONFIG word is legal whatever its fields hold (30_encoding.md R49). -/
theorem step_config (hs : s.inputs = .command c :: rest) (hopc : c.word.extractLsb' 28 4 = 0x4) :
    step s = exec (.config (bszField c.word) (kszField c.word) (polyField c.word)
      (modeField c.word)) (s.accept c rest) :=
  step_of_decode hs (decode_of_opc_config hopc)

end

/-- Settles O32: CONFIG reports the error its checks find first, and otherwise writes the registers
that `configured` makes. -/
theorem configAnswersItsRule : Obligations.ConfigAnswersItsRule := by
  intro s c rest bsz ksz mode poly hs hopc hbsz hksz hpoly hmode
  have hstep : step s = exec (.config bsz ksz poly mode) (s.accept c rest) := by
    rw [step_config hs hopc, hbsz, hksz, hpoly, hmode]
    rfl
  have hfail {e : Status} (he : checkConfig bsz ksz poly mode c.operands = .error e) :
      step s = .next (answered s rest s.regs e []) :=
    hstep.trans (exec_config_of_error (s := s.accept c rest) he)
  clear hbsz hksz hpoly hmode
  refine ⟨fun hb => hfail (checkConfig_errBlockSize hb), fun hb => ?_⟩
  obtain ⟨b, rfl⟩ := exists_size_of_mem hb
  refine ⟨fun hk => hfail (checkConfig_errKeySize hk), fun hk => ?_⟩
  obtain ⟨k, rfl⟩ := exists_size_of_mem hk
  refine ⟨fun hl => hfail (checkConfig_errKey hl), fun hl =>
    ⟨fun hp => hfail (checkConfig_errPoly hl hp), fun hp =>
      ⟨fun hm => hfail (checkConfig_errMode hl hp hm), fun hm => ?_⟩⟩⟩
  obtain ⟨m, rfl⟩ := exists_mode_of_le hm
  simp only [ne_eq, Mode.code_toNat_eq_zero_iff]
  exact ⟨fun ⟨hm, hv⟩ => hfail (checkConfig_errIv hl hp hm hv), fun hv =>
    ⟨_, hstep.trans (exec_config_answered (s := s.accept c rest) hp hl hv),
      rfl, rfl, rfl, rfl, rfl, rfl, rfl, rfl, rfl⟩⟩

/-- Settles O33: the word decodes to LOAD_KEY where Z is 0, and LOAD_KEY checks the configuration
before the key. -/
theorem loadKeyAnswersItsRule : Obligations.LoadKeyAnswersItsRule := by
  intro s c rest hs hopc
  refine ⟨step_formatD_of_fieldZ .loadKey hs hopc, fun hz =>
    ⟨step_formatD_of_unconfigured .loadKey hs hopc hz, fun r h => ?_⟩⟩
  have hstep := step_formatD .loadKey hs hopc hz
  exact ⟨fun hl => hstep.trans (exec_loadKey_errKey (s := s.accept c rest) h hl),
    fun hl => hstep.trans (exec_loadKey_answered (s := s.accept c rest) h hl)⟩

/-- Settles O34: the word decodes to LOAD_IV where Z is 0, and LOAD_IV reads IVDATA outside ECB mode
alone. -/
theorem loadIvAnswersItsRule : Obligations.LoadIvAnswersItsRule := by
  intro s c rest hs hopc
  refine ⟨step_formatD_of_fieldZ .loadIv hs hopc, fun hz =>
    ⟨step_formatD_of_unconfigured .loadIv hs hopc hz, fun r h => ?_⟩⟩
  have hstep := step_formatD .loadIv hs hopc hz
  exact ⟨fun hm => hstep.trans (exec_loadIv_of_ecb (s := s.accept c rest) h hm), fun hm =>
    ⟨fun hv => hstep.trans (exec_loadIv_errIv (s := s.accept c rest) h hm hv),
      fun hv => hstep.trans (exec_loadIv_answered (s := s.accept c rest) h hm hv)⟩⟩

/-- Settles O35: the equations of the three commands' successes; what CONFIG writes meets the
invariant. -/
theorem configCommandsComplete : Obligations.ConfigCommandsComplete := by
  refine ⟨fun s b k p m hp hl hv => ?_, fun s r h hl => exec_loadKey_answered h hl, fun s r h =>
    ⟨exec_loadIv_of_ecb h, exec_loadIv_answered h⟩⟩
  exact ⟨_, exec_config_answered hp hl hv, rfl, rfl, rfl, rfl, rfl,
    configured_inv ((polyValid_iff p).mpr hp) hl hv⟩

/-! ### What only CONFIG writes (R105) -/

/-- A command other than CONFIG writes at most KEY, RK, IV and STATE of a configured core. -/
theorem exec_frame_of_not_config {i : Instr} {s t : State} {r : CipherRegs}
    (hi : ∀ bsz ksz p m, i ≠ .config bsz ksz p m) (h : s.regs = some r) (hx : exec i s = .next t) :
    ∃ key rk iv w, t.regs = some { r with key := key, rk := rk, iv := iv, working := w } := by
  rcases instr_classes i with ⟨p, v, hg⟩ | ⟨bsz, ksz, p, m, rfl⟩ | rfl | rfl | ⟨rule, hb⟩
  · exact ⟨r.key, r.rk, r.iv, r.working, (exec_gf_regs hg hx).trans h⟩
  · exact absurd rfl (hi bsz ksz p m)
  · obtain ⟨key, rk, ht⟩ := exec_loadKey_frame h hx
    exact ⟨key, rk, r.iv, r.working, ht⟩
  · obtain ⟨iv, ht, -⟩ := exec_loadIv_frame h hx
    exact ⟨r.key, r.rk, iv, r.working, ht⟩
  · obtain ⟨iv, w, ht, -⟩ := exec_block_frame hb h hx
    exact ⟨r.key, r.rk, iv, w, ht⟩

/-- Settles O36: the mode, the sizes and the polynomial are not among the registers such a command
writes. -/
theorem onlyConfigChangesTheConfiguration : Obligations.OnlyConfigChangesTheConfiguration := by
  intro i s t hi hx
  cases h : s.regs with
  | none => simp [regs_none_of_not_config hi h hx]
  | some r =>
    obtain ⟨key, rk, iv, w, ht⟩ := exec_frame_of_not_config hi h hx
    simp [ht]

end Sys2Proof.Machine

/-! ## Proofs of the statements of 43_modes.md

A block command that passes its checks answers what its mode rule gives; the eight mode rules are one
equation each. A stream decrypts because each block's DECRYPT runs on the registers its ENCRYPT ran on,
STATE aside. -/

namespace Sys2Proof.Machine

open Claims

/-! ### The mode rules (R110 to R119) -/

section
variable {r : CipherRegs} {iv data : ByteVec}

theorem encryptBlock_ecb (hm : r.mode = .ecb) :
    encryptBlock r data = some (ecbEncrypt r data) := by
  simp [encryptBlock, hm]

theorem encryptBlock_cbc (hm : r.mode = .cbc) (hv : r.iv = some iv) :
    encryptBlock r data = some (cbcEncrypt r iv data) := by
  simp [encryptBlock, hm, hv]

theorem encryptBlock_cfb (hm : r.mode = .cfb) (hv : r.iv = some iv) :
    encryptBlock r data = some (cfbEncrypt r iv data) := by
  simp [encryptBlock, hm, hv]

theorem encryptBlock_ofb (hm : r.mode = .ofb) (hv : r.iv = some iv) :
    encryptBlock r data = some (ofbEncrypt r iv data) := by
  simp [encryptBlock, hm, hv]

theorem decryptBlock_ecb (hm : r.mode = .ecb) :
    decryptBlock r data = some (ecbDecrypt r data) := by
  simp [decryptBlock, hm]

theorem decryptBlock_cbc (hm : r.mode = .cbc) (hv : r.iv = some iv) :
    decryptBlock r data = some (cbcDecrypt r iv data) := by
  simp [decryptBlock, hm, hv]

theorem decryptBlock_cfb (hm : r.mode = .cfb) (hv : r.iv = some iv) :
    decryptBlock r data = some (cfbDecrypt r iv data) := by
  simp [decryptBlock, hm, hv]

theorem decryptBlock_ofb (hm : r.mode = .ofb) (hv : r.iv = some iv) :
    decryptBlock r data = some (ofbDecrypt r iv data) := by
  simp [decryptBlock, hm, hv]

end

/-! ### What ENCRYPT and DECRYPT answer -/

section
variable {i : Instr} {s t : State} {r : CipherRegs} {o : BlockOutcome} {x : ByteVec}
  {rule : CipherRegs → ByteVec → Option BlockOutcome}

theorem exec_block_answered (hi : BlockCommand i rule) (h : s.regs = some r)
    (hd : s.operands.data.length = r.bsz.bytes) (ho : rule r s.operands.data = some o) :
    exec i s = .next (answered s s.inputs (some (r.afterBlock o)) .ok o.result) := by
  rw [exec_block_of_length hi h hd, ho]
  rfl

theorem exec_block_errBlock (hi : BlockCommand i rule) (h : s.regs = some r)
    (hd : s.operands.data.length ≠ r.bsz.bytes) :
    exec i s = .next (answered s s.inputs (some r) .errBlock []) := by
  rw [exec_block_of_length_ne hi h hd, raise_eq_answered, h]

/-- A block command that answers OK has passed its checks: its result and the registers it leaves are
those of its mode rule. -/
theorem exec_block_ok (hi : BlockCommand i rule) (h : s.regs = some r) (hx : exec i s = .next t)
    (ht : t.responses = s.responses ++ [⟨.ok, x⟩]) :
    ∃ o, s.operands.data.length = r.bsz.bytes ∧ rule r s.operands.data = some o ∧ o.result = x ∧
      t.regs = some (r.afterBlock o) := by
  rcases exec_block_cases hi h hx with ⟨-, rfl⟩ | ⟨o, hd, ho, rfl⟩
  · simp at ht
  · exact ⟨o, hd, ho, by simpa using ht, rfl⟩

end

section
variable {i : Instr} {s : State} {c : Command} {rest : List HostEvent}
  {rule : CipherRegs → ByteVec → Option BlockOutcome}

theorem BlockCommand.formatD (hi : BlockCommand i rule) : FormatD i := by
  cases hi
  · exact .encrypt
  · exact .decrypt

/-- A step on a block command's word: ERR_ILLEGAL, ERR_NOT_CONFIGURED and ERR_BLOCK in that order, then
the answer of the mode rule (R110, R111). -/
theorem step_block (hi : BlockCommand i rule) (hs : s.inputs = .command c :: rest)
    (hopc : c.word.extractLsb' 28 4 = i.opcode) :
    (c.word.extractLsb' 0 28 ≠ 0 → step s = .next (answered s rest s.regs .errIllegal [])) ∧
      (c.word.extractLsb' 0 28 = 0 →
        (s.regs = none → step s = .next (answered s rest none .errNotConfigured [])) ∧
        ∀ r, s.regs = some r →
          (c.operands.data.length ≠ r.bsz.bytes →
            step s = .next (answered s rest (some r) .errBlock [])) ∧
          (c.operands.data.length = r.bsz.bytes → ∀ o, rule r c.operands.data = some o →
            step s = .next (answered s rest (some (r.afterBlock o)) .ok o.result))) := by
  refine ⟨step_formatD_of_fieldZ hi.formatD hs hopc, fun hz =>
    ⟨step_formatD_of_unconfigured hi.formatD hs hopc hz, fun r h => ?_⟩⟩
  have hstep := step_formatD hi.formatD hs hopc hz
  exact ⟨fun hd => hstep.trans (exec_block_errBlock (s := s.accept c rest) hi h hd),
    fun hd o ho => hstep.trans (exec_block_answered (s := s.accept c rest) hi h hd ho)⟩

end

/-- Settles O39: ENCRYPT's checks, then its mode rule, an equation per mode. -/
theorem encryptAnswersItsRule : Obligations.EncryptAnswersItsRule := by
  intro s c rest hs hopc
  obtain ⟨hillegal, hlegal⟩ := step_block .encrypt hs hopc
  refine ⟨hillegal, fun hz => ⟨(hlegal hz).left, ?_⟩⟩
  rintro r data h rfl
  obtain ⟨hlen, hok⟩ := (hlegal hz).right r h
  exact ⟨hlen, fun hd => ⟨fun hm => ⟨_, hok hd _ (encryptBlock_ecb hm)⟩, fun iv hv =>
    ⟨fun hm => ⟨_, hok hd _ (encryptBlock_cbc hm hv)⟩,
      fun hm => ⟨_, hok hd _ (encryptBlock_cfb hm hv)⟩,
      fun hm => ⟨_, hok hd _ (encryptBlock_ofb hm hv)⟩⟩⟩⟩

/-- Settles O40: DECRYPT's checks, then its mode rule, an equation per mode. -/
theorem decryptAnswersItsRule : Obligations.DecryptAnswersItsRule := by
  intro s c rest hs hopc
  obtain ⟨hillegal, hlegal⟩ := step_block .decrypt hs hopc
  refine ⟨hillegal, fun hz => ⟨(hlegal hz).left, ?_⟩⟩
  rintro r data h rfl
  obtain ⟨hlen, hok⟩ := (hlegal hz).right r h
  exact ⟨hlen, fun hd => ⟨fun hm => ⟨_, hok hd _ (decryptBlock_ecb hm)⟩, fun iv hv =>
    ⟨fun hm => ⟨_, hok hd _ (decryptBlock_cbc hm hv)⟩,
      fun hm => ⟨_, hok hd _ (decryptBlock_cfb hm hv)⟩,
      fun hm => ⟨_, hok hd _ (decryptBlock_ofb hm hv)⟩⟩⟩⟩

/-- Settles O41: the invariant gives every mode rule the IV it reads, and what a mode rule leaves fits
the configuration. -/
theorem blockCommandsComplete : Obligations.BlockCommandsComplete := by
  intro i s r hi hs h hd
  obtain ⟨rule, hb⟩ := blockCommand_of_encrypt_or_decrypt hi
  obtain ⟨o, ho⟩ := Option.isSome_iff_exists.mp (hb.rule_isSome (hs r h) s.operands.data)
  refine ⟨o.result, _, _, exec_block_answered hb h hd ho, (hb.fits (hs r h) hd ho).resultLength,
    fun hm => ?_⟩
  simp [hb.newIv_of_ecb hm ho]

/-! ### Exclusive-or of byte vectors -/

section
variable {s t u : ByteVec}

theorem xorVec_comm (s t : ByteVec) : xorVec s t = xorVec t s :=
  List.zipWith_comm_of_comm BitVec.xor_comm

theorem xorVec_xorVec (h : s.length = t.length) : xorVec (xorVec s t) t = s :=
  List.ext_getElem (by simp [h]) fun j _ _ => by simp [xorVec]

theorem xorVec_right_inj (ht : t.length = s.length) (hu : u.length = s.length) :
    xorVec s t = xorVec s u ↔ t = u := by
  refine ⟨fun h => ?_, congrArg _⟩
  rw [← xorVec_xorVec ht, xorVec_comm t, h, xorVec_comm s, xorVec_xorVec hu]

theorem xorVec_replicate_zero {n : Nat} (h : s.length = n) : xorVec s (.replicate n 0) = s :=
  List.ext_getElem (by simp [h]) fun j _ _ => by simp [xorVec]

end

/-! ### One block in two modes (R121) -/

section
variable {r : CipherRegs}

/-- BlockEncrypt reads neither CFG_MODE nor IV. -/
@[simp] theorem blockEncrypt_withModeAndIv (m : Mode) (iv : Option ByteVec) (v : ByteVec) :
    blockEncrypt { r with mode := m, iv := iv } v = blockEncrypt r v :=
  blockEncrypt_congr rfl rfl rfl rfl rfl v

@[simp] theorem blockEncrypt_afterBlock (o : BlockOutcome) (v : ByteVec) :
    blockEncrypt (r.afterBlock o) v = blockEncrypt r v :=
  blockEncrypt_congr rfl rfl rfl rfl rfl v

end

/-- Settles O43: the four mode rules on one block; exclusive-or with the all-zero IV leaves the block. -/
theorem singleBlockEquivalences : Obligations.SingleBlockEquivalences := by
  rintro s r v data rfl hd -
  have hx {m : Mode} {iv : Option ByteVec} {o : BlockOutcome}
      (ho : encryptBlock { r with mode := m, iv := iv } s.operands.data = some o) :
      exec .encrypt (inMode s r m iv) = .next (answered (inMode s r m iv) s.inputs
        (some (CipherRegs.afterBlock { r with mode := m, iv := iv } o)) .ok o.result) :=
    exec_block_answered (s := inMode s r m iv) .encrypt rfl hd ho
  refine ⟨⟨_, _, hx (encryptBlock_cfb rfl rfl), rfl, ?_, ?_⟩,
    ⟨_, _, hx (encryptBlock_ofb rfl rfl), rfl, ?_, ?_⟩, ⟨_, hx (encryptBlock_cbc rfl rfl), ?_⟩,
    ⟨_, hx (encryptBlock_ecb rfl), ?_⟩⟩
  · simp [answered, inMode, cfbEncrypt]
  · simp [cfbEncrypt]
  · simp [answered, inMode, ofbEncrypt]
  · simp [ofbEncrypt]
  · simp only [answered, inMode, cbcEncrypt, xorVec_replicate_zero hd, blockEncrypt_withModeAndIv]
  · simp [answered, inMode, ecbEncrypt]

/-! ### The same block twice (R122) -/

theorem blockEncrypt_inj {r : CipherRegs} {v w : ByteVec} (hr : r.Inv)
    (hb : Function.Bijective (lookup r.sbox)) (hv : v.length = r.bsz.bytes)
    (hw : w.length = r.bsz.bytes) : blockEncrypt r v = blockEncrypt r w ↔ v = w := by
  refine ⟨fun h => ?_, congrArg _⟩
  rw [← blockDecrypt_blockEncrypt hr hb hv, h, blockDecrypt_blockEncrypt hr hb hw]

/-- Settles O44: the second ciphertext is the mode rule at the IV the first one left; BlockEncrypt and
exclusive-or with the block are injective, so the two are equal exactly when those IVs are. -/
theorem repeatedBlockCiphertexts : Obligations.RepeatedBlockCiphertexts := by
  intro s t u r v x y hs h hb hv hx ht hy hu
  have hr := hs r h
  obtain ⟨o, hd, ho, rfl, hregs⟩ := exec_block_ok .encrypt h hx ht
  obtain ⟨o', -, ho', rfl, -⟩ :=
    exec_block_ok (s := { t with operands := s.operands }) .encrypt hregs hy hu
  have hiv (hm : r.mode ≠ .ecb) : r.iv = some v ∧ v.length = r.bsz.bytes :=
    ⟨hv.resolve_left hm, hr.ivLength v (hv.resolve_left hm)⟩
  refine ⟨fun hm => ?_, fun hm => ?_, fun hm => ?_, fun hm => ?_⟩
  · obtain ⟨hv, hvl⟩ := hiv (by simp [hm])
    obtain rfl := Option.some.inj ((encryptBlock_cbc hm hv).symm.trans ho)
    obtain rfl := Option.some.inj ((encryptBlock_cbc (r := r.afterBlock _) hm rfl).symm.trans ho')
    simp only [cbcEncrypt, blockEncrypt_afterBlock]
    rw [blockEncrypt_inj hr hb (by simp [hd, hvl]) (by simp [hd]),
      xorVec_right_inj (by rw [hd, hvl]) (by simp [hd]), eq_comm]
  · obtain ⟨hv, hvl⟩ := hiv (by simp [hm])
    obtain rfl := Option.some.inj ((encryptBlock_cfb hm hv).symm.trans ho)
    obtain rfl := Option.some.inj ((encryptBlock_cfb (r := r.afterBlock _) hm rfl).symm.trans ho')
    simp only [cfbEncrypt, blockEncrypt_afterBlock]
    rw [xorVec_right_inj (by simp [hd]) (by simp [hd]), blockEncrypt_inj hr hb hvl (by simp [hd]),
      eq_comm]
  · obtain ⟨hv, hvl⟩ := hiv (by simp [hm])
    obtain rfl := Option.some.inj ((encryptBlock_ofb hm hv).symm.trans ho)
    obtain rfl := Option.some.inj ((encryptBlock_ofb (r := r.afterBlock _) hm rfl).symm.trans ho')
    simp only [ofbEncrypt, blockEncrypt_afterBlock]
    rw [xorVec_right_inj (by simp [hd]) (by simp [hd]), blockEncrypt_inj hr hb hvl (by simp),
      eq_comm]
  · obtain rfl := Option.some.inj ((encryptBlock_ecb hm).symm.trans ho)
    obtain rfl := Option.some.inj ((encryptBlock_ecb hm).symm.trans ho')
    simp [ecbEncrypt]

/-! ### A stream and its decryption (R120) -/

section
variable {r : CipherRegs} {data : ByteVec} {o : BlockOutcome}

/-- Another value in the place of STATE. -/
def CipherRegs.withWorking (r : CipherRegs) (w : Option ByteVec) : CipherRegs :=
  { r with working := w }

/-- No mode rule reads STATE (10_state.md R21). -/
@[simp] theorem decryptBlock_withWorking (w : Option ByteVec) :
    decryptBlock (r.withWorking w) data = decryptBlock r data := rfl

/-- Under one set of registers DECRYPT's rule gives back the block of ENCRYPT's rule and leaves the same
IV. -/
theorem decryptBlock_encryptBlock (hr : r.Inv)
    (hb : r.mode = .ecb ∨ r.mode = .cbc → Function.Bijective (lookup r.sbox))
    (hd : data.length = r.bsz.bytes) (ho : encryptBlock r data = some o) :
    ∃ o', decryptBlock r o.result = some o' ∧ o'.result = data ∧ o'.newIv = o.newIv := by
  by_cases hm : r.mode = .ecb
  · obtain rfl := Option.some.inj ((encryptBlock_ecb hm).symm.trans ho)
    exact ⟨_, decryptBlock_ecb hm, blockDecrypt_blockEncrypt hr (hb (.inl hm)) hd, rfl⟩
  obtain ⟨iv, hv⟩ := Option.isSome_iff_exists.mp ((ecb_or_iv_isSome hr).resolve_left hm)
  have hvl := hr.ivLength iv hv
  have hxor : xorVec (xorVec data (blockEncrypt r iv)) (blockEncrypt r iv) = data :=
    xorVec_xorVec (by simp [hd])
  cases hmode : r.mode with
  | ecb => exact absurd hmode hm
  | cbc =>
    obtain rfl := Option.some.inj ((encryptBlock_cbc hmode hv).symm.trans ho)
    refine ⟨_, decryptBlock_cbc hmode hv, ?_, rfl⟩
    simp only [cbcDecrypt, cbcEncrypt]
    rw [blockDecrypt_blockEncrypt hr (hb (.inr hmode)) (by simp [hd, hvl]),
      xorVec_xorVec (by rw [hd, hvl])]
  | cfb =>
    obtain rfl := Option.some.inj ((encryptBlock_cfb hmode hv).symm.trans ho)
    exact ⟨_, decryptBlock_cfb hmode hv, hxor, rfl⟩
  | ofb =>
    obtain rfl := Option.some.inj ((encryptBlock_ofb hmode hv).symm.trans ho)
    exact ⟨_, decryptBlock_ofb hmode hv, hxor, rfl⟩

end

/-- A step on ENCRYPT or DECRYPT, presented with a block of CFG_BSZ bytes, gives the answer of the mode
rule. -/
theorem step_block_answered {i : Instr} {s : State} {c : Command} {rest : List HostEvent}
    {r : CipherRegs} {o : BlockOutcome} {rule : CipherRegs → ByteVec → Option BlockOutcome}
    (hi : BlockCommand i rule) (hs : s.inputs = .command c :: rest) (hw : c.word = encode i)
    (h : s.regs = some r) (hd : c.operands.data.length = r.bsz.bytes)
    (ho : rule r c.operands.data = some o) :
    ∃ t, step s = .next t ∧ t.regs = some (r.afterBlock o) ∧ t.inputs = rest ∧
      t.responses = s.responses ++ [⟨.ok, o.result⟩] :=
  ⟨_, (step_of_decode hs (hw ▸ hi.formatD.decode_encode)).trans
    (exec_block_answered (s := s.accept c rest) hi h hd ho), rfl, rfl, rfl⟩

/-- From the registers `r`, whatever STATE holds, a core decrypts `ciphers` to `blocks`. -/
def DecryptsTo (r : CipherRegs) (ciphers blocks : List ByteVec) : Prop :=
  ∀ (s : State) (w : Option ByteVec), s.regs = some (r.withWorking w) →
    s.inputs = ciphers.map (fun x => .command (decryptCommand x)) →
    ∃ u : State, Host.Core.run core ciphers.length s = .next u ∧
      u.responses = s.responses ++ blocks.map (fun p => ⟨.ok, p⟩)

theorem decryptsTo_nil (r : CipherRegs) : DecryptsTo r [] [] :=
  fun s _ _ _ => ⟨s, rfl, by simp⟩

theorem decryptsTo_cons {r : CipherRegs} {o : BlockOutcome} {p : ByteVec}
    {ciphers blocks : List ByteVec} (hr : r.Inv)
    (hb : r.mode = .ecb ∨ r.mode = .cbc → Function.Bijective (lookup r.sbox))
    (hp : p.length = r.bsz.bytes) (ho : encryptBlock r p = some o)
    (hrest : DecryptsTo (r.afterBlock o) ciphers blocks) :
    DecryptsTo r (o.result :: ciphers) (p :: blocks) := by
  intro s w h hs
  obtain ⟨o', ho', rfl, hiv⟩ := decryptBlock_encryptBlock hr hb hp ho
  obtain ⟨t, hx, hregs, hin, hresp⟩ :=
    step_block_answered .decrypt hs rfl h (encryptBlock_fits hr hp ho).resultLength
      ((decryptBlock_withWorking w).trans ho')
  have hsame : (r.withWorking w).afterBlock o' =
      (r.afterBlock o).withWorking (some o'.working) := by
    simp [CipherRegs.afterBlock, CipherRegs.withWorking, hiv]
  obtain ⟨u, hu, hresp'⟩ := hrest t _ (hregs.trans (congrArg some hsame)) hin
  exact ⟨u, (run_succ_of_step hx).trans hu, by simp [hresp', hresp]⟩

/-- A run of ENCRYPT commands answers ciphertexts that the starting registers decrypt, and writes nothing
but IV and STATE. -/
theorem run_encryptCommands {r : CipherRegs} (blocks : List ByteVec) (s : State) (hr : r.Inv)
    (hb : r.mode = .ecb ∨ r.mode = .cbc → Function.Bijective (lookup r.sbox))
    (hlen : ∀ p ∈ blocks, p.length = r.bsz.bytes) (h : s.regs = some r)
    (hs : s.inputs = blocks.map fun p => .command (encryptCommand p)) :
    ∃ (t : State) (ciphers : List ByteVec),
      Host.Core.run core blocks.length s = .next t ∧
      t.responses = s.responses ++ ciphers.map (fun x => ⟨.ok, x⟩) ∧
      ciphers.length = blocks.length ∧ DecryptsTo r ciphers blocks ∧
      ∃ iv w, t.regs = some { r with iv := iv, working := w } ∧ (r.mode = .ecb → iv = r.iv) := by
  induction blocks generalizing s r with
  | nil =>
    exact ⟨s, [], rfl, by simp, rfl, decryptsTo_nil r, r.iv, r.working, h, fun _ => rfl⟩
  | cons p blocks ih =>
    obtain ⟨hp, hlen⟩ := List.forall_mem_cons.mp hlen
    obtain ⟨o, ho⟩ := Option.isSome_iff_exists.mp (BlockCommand.encrypt.rule_isSome hr p)
    obtain ⟨u, hx, hregs, hin, hresp⟩ := step_block_answered .encrypt hs rfl h hp ho
    obtain ⟨t, ciphers, ht, hresp', hcount, hdec, iv, w, hregs', hiv⟩ :=
      ih u (afterBlock_inv hr (encryptBlock_fits hr hp ho)) hb hlen hregs hin
    refine ⟨t, o.result :: ciphers, (run_succ_of_step hx).trans ht, by simp [hresp', hresp],
      by simp [hcount], decryptsTo_cons hr hb hp ho hdec, iv, w, hregs', fun hm => ?_⟩
    simp [hiv hm, BlockCommand.encrypt.newIv_of_ecb hm ho]

/-! ### Restoring the starting IV (R120) -/

theorem Size.bytes_lt_256 (b : Size) : b.bytes < 256 := by
  cases b <;> decide

section
variable {s : State} {r : CipherRegs} {v : ByteVec} {iv w : Option ByteVec} {restore : Command}
  {rest : List HostEvent}

theorem decode_configAgain (r : CipherRegs) (v : ByteVec) : decode (configAgain r v).word =
    .ok (.config r.bsz.bytes r.ksz.bytes r.poly r.mode.code.toNat) :=
  decodeEncodeRoundTrip _ (wellFormed_config_iff.mpr
    ⟨r.bsz.bytes_lt_256, r.ksz.bytes_lt_256, r.mode.code.isLt.trans (by decide)⟩)

/-- The configuration in force, given again with the IV in force, makes the same registers but for
STATE. -/
theorem configured_of_inv (hr : r.Inv) (hv : r.mode = .ecb ∨ r.iv = some v) :
    configured r.bsz r.ksz r.poly r.mode r.key v = r.withWorking none := by
  have hiv : (if r.mode = .ecb then none else some v) = r.iv := by
    by_cases hm : r.mode = .ecb
    · have hnone : r.iv = none := by simpa [hm] using hr.ivPresent
      rw [if_pos hm, hnone]
    · rw [if_neg hm, hv.resolve_left hm]
  rw [configured, hiv, ← hr.sboxEq, ← hr.invSboxEq, ← hr.rkEq]
  rfl

/-- Either way of restoring the starting IV restores every register but STATE. -/
theorem step_restore (hr : r.Inv) (hv : r.mode = .ecb ∨ r.iv = some v)
    (hrestore : restore = loadIvCommand v ∨ restore = configAgain r v)
    (h : s.regs = some { r with iv := iv, working := w }) (hiv : r.mode = .ecb → iv = r.iv)
    (hs : s.inputs = .command restore :: rest) :
    ∃ t w', step s = .next t ∧ t.regs = some (r.withWorking w') ∧ t.inputs = rest ∧
      t.responses = s.responses ++ [⟨.ok, []⟩] := by
  rcases hrestore with rfl | rfl
  · have hstep := step_of_decode hs FormatD.loadIv.decode_encode
    by_cases hm : r.mode = .ecb
    · obtain rfl := hiv hm
      have hx := exec_loadIv_of_ecb (s := s.accept (loadIvCommand v) rest) h hm
      exact ⟨_, w, hstep.trans hx, rfl, rfl, rfl⟩
    · have hv := hv.resolve_left hm
      have hx := exec_loadIv_answered (s := s.accept (loadIvCommand v) rest) h hm (hr.ivLength v hv)
      refine ⟨_, w, hstep.trans hx, ?_, rfl, rfl⟩
      rw [CipherRegs.withWorking, hv]
      rfl
  · have hx := exec_config_answered (s := s.accept (configAgain r v) rest)
      ((polyValid_iff _).mp hr.polyValid) hr.keyLength (hv.imp_right (hr.ivLength v))
    refine ⟨_, none, (step_of_decode hs (decode_configAgain r v)).trans hx, ?_, rfl, rfl⟩
    rw [← configured_of_inv hr hv]
    rfl

end

/-- Settles O42: a run of ENCRYPT commands writes IV and STATE alone, restoring the starting IV gives
back the starting registers but for STATE, and these decrypt the ciphertexts. -/
theorem streamRoundTrip : Obligations.StreamRoundTrip := by
  intro s r v blocks restore hinv h hlen hv hb hrestore hs
  have hr := hinv r h
  obtain ⟨t, ciphers, ht, hresp, hcount, hdec, iv, w, hregs, hiv⟩ :=
    run_encryptCommands blocks s hr hb hlen h hs
  obtain ⟨d, w', hx, hd, hin, hresp'⟩ := step_restore
    (s := { t with
      inputs := .command restore :: ciphers.map fun x => .command (decryptCommand x) })
    hr hv hrestore hregs hiv rfl
  obtain ⟨u, hu, hresp''⟩ := hdec d w' hd hin
  exact ⟨t, u, ciphers, ht, hresp, hcount, (run_succ_of_step hx).trans hu, by
    simp [hresp'', hresp']⟩

end Sys2Proof.Machine

/-! ## Proofs of the statements of 60_exceptions.md

An error is one operation, `State.raise`: a command that ends has either raised its error or answered OK,
so whatever fails leaves the state `raise` makes. -/

namespace Sys2Proof.Machine

/-- An idle core takes a step to the state it is in (60_exceptions.md R136). -/
theorem step_of_idle {s : State} (hs : s.inputs = []) : step s = .next s := by
  simp [step, hs]

/-- Under the invariant every step ends in a next state: only a command's meaning could stop one, and
under the invariant none does. -/
theorem step_completes {s : State} (h : s.Inv) : ∃ t, step s = .next t := by
  rcases step_cases s with
    ⟨-, hx⟩ | ⟨_, rest, -, -, hx⟩ | ⟨c, rest, i, -, -, hx⟩ | ⟨c, rest, _, -, -, hx⟩
  · exact ⟨_, hx⟩
  · exact ⟨_, hx⟩
  · rw [hx]
    exact exec_completes (s := s.accept c rest) i h
  · exact ⟨_, hx⟩

/-! ### A command that ends has raised an error or answered OK (R126) -/

/-- `t` is `s` after a command that raised an error, or after one that answered OK. -/
def RaisedOrOk (s t : State) : Prop :=
  (∃ e, t = s.raise e) ∨ ∃ v, t.responses = s.responses ++ [⟨.ok, v⟩]

section
variable {i : Instr} {s t : State} {r : CipherRegs} {p v : Byte}
  {rule : CipherRegs → ByteVec → Option BlockOutcome}

theorem raise_raisedOrOk (e : Status) : RaisedOrOk s (s.raise e) := .inl ⟨e, rfl⟩

/-- A success may write registers before it responds; it gives no other response. -/
theorem respond_ok_raisedOrOk {u : State} (hu : u.responses = s.responses) (result : ByteVec) :
    RaisedOrOk s (u.respond .ok result) :=
  .inr ⟨result, by rw [respond_responses, hu]⟩

theorem gfRespond_raisedOrOk : RaisedOrOk s (gfRespond p v s) := by
  rcases gfRespond_cases p v s with ⟨-, e⟩ | ⟨-, e⟩ <;> rw [e]
  · exact respond_ok_raisedOrOk rfl [v]
  · exact raise_raisedOrOk .errPoly

theorem exec_config_raisedOrOk {bsz ksz n : Nat} (hx : exec (.config bsz ksz p n) s = .next t) :
    RaisedOrOk s t := by
  cases hc : checkConfig bsz ksz p n s.operands with
  | error e =>
    obtain rfl := Host.Outcome.next.inj ((exec_config_of_error hc).symm.trans hx)
    exact raise_raisedOrOk e
  | ok bkm =>
    obtain rfl := Host.Outcome.next.inj ((exec_config_of_ok hc).symm.trans hx)
    exact respond_ok_raisedOrOk (commit_responses ..) []

theorem exec_loadKey_raisedOrOk (hs : s.regs = some r) (hx : exec .loadKey s = .next t) :
    RaisedOrOk s t := by
  rw [exec_loadKey_of_regs hs] at hx
  obtain rfl := Host.Outcome.next.inj hx
  split
  · exact respond_ok_raisedOrOk (commit_responses ..) []
  · exact raise_raisedOrOk .errKey

theorem exec_loadIv_raisedOrOk (hs : s.regs = some r) (hx : exec .loadIv s = .next t) :
    RaisedOrOk s t := by
  rw [exec_loadIv_of_regs hs] at hx
  obtain rfl := Host.Outcome.next.inj hx
  split
  · exact respond_ok_raisedOrOk rfl []
  · split
    · exact respond_ok_raisedOrOk (commit_responses ..) []
    · exact raise_raisedOrOk .errIv

theorem exec_block_raisedOrOk (hi : BlockCommand i rule) (hs : s.regs = some r)
    (hx : exec i s = .next t) : RaisedOrOk s t := by
  rcases exec_block_cases hi hs hx with ⟨-, rfl⟩ | ⟨out, -, -, rfl⟩
  · exact raise_raisedOrOk .errBlock
  · exact respond_ok_raisedOrOk (commit_responses ..) out.result

/-- The last three classes of `instr_classes` are the commands that need a configuration. -/
theorem mem_needs_config_of_class
    (hi : i = .loadKey ∨ i = .loadIv ∨ ∃ rule, BlockCommand i rule) :
    i ∈ [.loadKey, .loadIv, .encrypt, .decrypt] := by
  rcases hi with rfl | rfl | ⟨rule, hi⟩
  · simp
  · simp
  · exact hi.mem_needs_config

/-- Every command that ends has raised an error or answered OK, in every state. -/
theorem exec_raisedOrOk (hx : exec i s = .next t) : RaisedOrOk s t := by
  rcases instr_classes i with ⟨p, v, hi⟩ | ⟨bsz, ksz, p, n, rfl⟩ | hi
  · obtain rfl := Host.Outcome.next.inj ((exec_gf hi).symm.trans hx)
    exact gfRespond_raisedOrOk
  · exact exec_config_raisedOrOk hx
  · cases hs : s.regs with
    | none =>
      have hmem := mem_needs_config_of_class hi
      obtain rfl := Host.Outcome.next.inj ((exec_of_unconfigured hs hmem).symm.trans hx)
      exact raise_raisedOrOk .errNotConfigured
    | some r =>
      rcases hi with rfl | rfl | ⟨rule, hi⟩
      · exact exec_loadKey_raisedOrOk hs hx
      · exact exec_loadIv_raisedOrOk hs hx
      · exact exec_block_raisedOrOk hi hs hx

/-- A step on a presented word, legal or not, raises an error or answers OK on the state that accepted
the command. -/
theorem step_raisedOrOk {c : Command} {rest : List HostEvent} (hs : s.inputs = .command c :: rest)
    (hx : step s = .next t) : RaisedOrOk (s.accept c rest) t := by
  cases hd : decode c.word with
  | ok i => exact exec_raisedOrOk ((step_of_decode hs hd).symm.trans hx)
  | error x =>
    obtain rfl := Host.Outcome.next.inj ((step_of_decode_error hs hd).symm.trans hx)
    exact raise_raisedOrOk .errIllegal

/-- A command whose status is not OK has done nothing but raise that status. -/
theorem RaisedOrOk.eq_raise {status : Status} {result : ByteVec} (h : RaisedOrOk s t)
    (ht : t.responses = s.responses ++ [⟨status, result⟩]) (hst : status ≠ .ok) :
    t = s.raise status ∧ result = [] := by
  rcases h with ⟨e, rfl⟩ | ⟨v, hv⟩
  · obtain ⟨rfl, rfl⟩ : e = status ∧ [] = result := by simpa using ht
    exact ⟨rfl, rfl⟩
  · obtain ⟨rfl, -⟩ : status = .ok ∧ result = v := by simpa [hv, eq_comm] using ht
    exact absurd rfl hst

end

/-- Settles O13: `step_completes`. -/
theorem stepNeverStops : Obligations.StepNeverStops := by
  intro s h
  exact step_completes h

/-- Settles O38: a failed command leaves the state that `raise` makes, whose registers are those of the
state that accepted the command. -/
theorem failedCommandsWriteNothing : Obligations.FailedCommandsWriteNothing := by
  intro s t c rest status result hs hx hresp hst
  obtain ⟨rfl, hres⟩ := (step_raisedOrOk hs hx).eq_raise hresp hst
  exact ⟨rfl, hres⟩

/-- Settles O9: `step_of_idle`. -/
theorem idleCoreKeepsItsState : Obligations.IdleCoreKeepsItsState := by
  intro s hs
  exact step_of_idle hs

end Sys2Proof.Machine

/-! ## Proofs of the statements of 70_reset_and_hazards.md

A reset is one operation, `State.resetCore`, in whatever state it meets the core. The IV a chained
command leaves is read off its mode rule. -/

namespace Sys2Proof.Machine

/-! ### Reset (R145, R146) -/

theorem step_of_reset {s : State} {rest : List HostEvent} {c : Command}
    (hs : s.inputs = .reset :: rest ∨ s.inputs = .resetDuring c :: rest) :
    step s = .next (s.resetCore rest) := by
  rcases hs with hs | hs
  · simp [step, hs]
  · simp [step, hs]

/-- Settles O7: what `resetCore` leaves. -/
theorem resetAbandonsTheCommand : Obligations.ResetAbandonsTheCommand := by
  intro s rest c hs
  exact ⟨_, step_of_reset hs, resetCore_regs s rest, resetCore_operands s rest, rfl, rfl,
    resetCore_responses s rest⟩

/-! ### The IV a chained command leaves (R150) -/

theorem xorVec_xorVec_left {s t : ByteVec} (h : s.length = t.length) :
    xorVec s (xorVec s t) = t := by
  rw [xorVec_comm s t, xorVec_comm s, xorVec_xorVec h.symm]

section
variable {i : Instr} {s t : State} {r q : CipherRegs} {data iv x : ByteVec} {o : BlockOutcome}
  {rule : CipherRegs → ByteVec → Option BlockOutcome}

theorem exists_iv_of_chained (hr : r.Inv) (hm : r.mode ≠ .ecb) : ∃ iv, r.iv = some iv :=
  Option.isSome_iff_exists.mp ((ecb_or_iv_isSome hr).resolve_left hm)

theorem encryptBlock_newIv_eq_result (hm : r.mode = .cbc ∨ r.mode = .cfb) (hv : r.iv = some iv)
    (ho : encryptBlock r data = some o) : o.newIv = some o.result := by
  rcases hm with hm | hm
  · obtain rfl := Option.some.inj ((encryptBlock_cbc hm hv).symm.trans ho)
    rfl
  · obtain rfl := Option.some.inj ((encryptBlock_cfb hm hv).symm.trans ho)
    rfl

theorem decryptBlock_newIv_eq_data (hm : r.mode = .cbc ∨ r.mode = .cfb) (hv : r.iv = some iv)
    (ho : decryptBlock r data = some o) : o.newIv = some data := by
  rcases hm with hm | hm
  · obtain rfl := Option.some.inj ((decryptBlock_cbc hm hv).symm.trans ho)
    rfl
  · obtain rfl := Option.some.inj ((decryptBlock_cfb hm hv).symm.trans ho)
    rfl

/-- OFB computes the same in either direction (43_modes.md R119). -/
theorem BlockCommand.rule_ofb (hi : BlockCommand i rule) (hm : r.mode = .ofb)
    (hv : r.iv = some iv) : rule r data = some (ofbEncrypt r iv data) := by
  cases hi with
  | encrypt => exact encryptBlock_ofb hm hv
  | decrypt => exact decryptBlock_ofb hm hv

/-- In OFB the IV left is the keystream block, which the host gets back from DATA and RESULT. -/
theorem BlockCommand.newIv_of_ofb (hi : BlockCommand i rule) (hm : r.mode = .ofb)
    (hv : r.iv = some iv) (hd : data.length = r.bsz.bytes) (ho : rule r data = some o) :
    o.newIv = some (xorVec data o.result) := by
  obtain rfl := Option.some.inj ((hi.rule_ofb hm hv).symm.trans ho)
  have hkey : xorVec data (xorVec data (blockEncrypt r iv)) = blockEncrypt r iv :=
    xorVec_xorVec_left (by simp [hd])
  exact congrArg some hkey.symm

/-- A block command that answers OK leaves the IV its mode rule writes. -/
theorem exec_block_ok_iv (hi : BlockCommand i rule) (h : s.regs = some r) (hx : exec i s = .next t)
    (hq : t.regs = some q) (ht : t.responses = s.responses ++ [⟨.ok, x⟩]) :
    ∃ o, s.operands.data.length = r.bsz.bytes ∧ rule r s.operands.data = some o ∧ o.result = x ∧
      ∀ v, o.newIv = some v → q.iv = some v := by
  obtain ⟨o, hd, ho, hres, hregs⟩ := exec_block_ok hi h hx ht
  obtain rfl := Option.some.inj (hregs.symm.trans hq)
  exact ⟨o, hd, ho, hres, fun v hv => by simp [hv]⟩

end

/-- Settles O45: the invariant gives the mode rule the IV it reads, and the rule's new IV is its result,
its block, or the exclusive-or of the two. -/
theorem hostCanComputeTheIv : Obligations.HostCanComputeTheIv := by
  intro i s t r q x hs h hx hq ht
  refine ⟨?_, ?_, fun hi hm => ?_⟩
  · rintro rfl hm
    obtain ⟨iv, hv⟩ := exists_iv_of_chained (hs r h) (fun he => by simp [he] at hm)
    obtain ⟨o, -, ho, rfl, hiv⟩ := exec_block_ok_iv .encrypt h hx hq ht
    exact hiv _ (encryptBlock_newIv_eq_result hm hv ho)
  · rintro rfl hm
    obtain ⟨iv, hv⟩ := exists_iv_of_chained (hs r h) (fun he => by simp [he] at hm)
    obtain ⟨o, -, ho, -, hiv⟩ := exec_block_ok_iv .decrypt h hx hq ht
    exact hiv _ (decryptBlock_newIv_eq_data hm hv ho)
  · obtain ⟨rule, hb⟩ := blockCommand_of_encrypt_or_decrypt hi
    obtain ⟨iv, hv⟩ := exists_iv_of_chained (hs r h) (fun he => by simp [he] at hm)
    obtain ⟨o, hd, ho, rfl, hiv⟩ := exec_block_ok_iv hb h hx hq ht
    exact hiv _ (hb.newIv_of_ofb hm hv hd ho)

end Sys2Proof.Machine
